-- ==== Sys2Proof/Word.lean ====
section
/-! DEFINITION. The word types of the block's encodings (spec/30_encoding.md, spec/00_scope.md R9, R10). -/

namespace Sys2Proof

/-- A command byte or a character code on the bus: 8 bits (R9). -/
abbrev Byte := BitVec 8

/-- The 9-bit bus word `{RS, B[7:0]}` of R49: bit 8 is RS, bits 7:0 are the byte. -/
abbrev BusWord := BitVec 9

/-- The 5-bit word `{RS, N[3:0]}` that a `NIB` cycle carries (R50). -/
abbrev NibWord := BitVec 5

/-- One word as it goes over the bus: a bus word (formats `CYC8`, `CYC4`) or the lone nibble of
initialization step 2 (format `NIB`), R50. -/
inductive WireWord where
  | bus (w : BusWord)
  | nib (w : NibWord)
  deriving DecidableEq, Repr

end Sys2Proof
end

