-- ==== Sys2Proof/Config.lean ====
section
/-! DEFINITION. The configuration a driver instance is constructed with: mode, line count, the two OPEN flags and the
delay table (spec/00_scope.md R8, spec/10_state.md R16 to R19, spec/70_reset_and_hazards.md R114). -/

namespace Sys2Proof

/-- The bus width mode, `cfg.MODE` (R16). -/
inductive BusMode where
  | eightLine
  | fourLine
  deriving DecidableEq, Repr

/-- `N`, the number of data lines a mode takes (R8, R60). -/
def BusMode.lineCount : BusMode → Nat
  | .eightLine => 8
  | .fourLine => 4

/-- One of two values by the mode: the `EightLine` one, the `FourLine` one. -/
def BusMode.pick {α : Type} (m : BusMode) (eight four : α) : α :=
  match m with
  | .eightLine => eight
  | .fourLine => four

/-- `cfg.T`, the eight named delays in nanoseconds (R18), each a whole number of them (DESIGN CHOICE, log 18). -/
structure DelayTable where
  tPor : Nat
  tFs1 : Nat
  tInit : Nat
  tClr : Nat
  tCmd : Nat
  tData : Nat
  tPw : Nat
  tPl : Nat
  deriving DecidableEq, Repr

/-- The lower bounds of R8 and R114. -/
def DelayTable.lowerBounds : DelayTable where
  tPor := 15000000
  tFs1 := 4100000
  tInit := 100000
  tClr := 1520000
  tCmd := 50000
  tData := 100000
  tPw := 450
  tPl := 550

/-- The reference delays of R114. -/
def DelayTable.reference : DelayTable where
  tPor := 15000000
  tFs1 := 4100000
  tInit := 100000
  tClr := 2000000
  tCmd := 50000
  tData := 100000
  tPw := 1000
  tPl := 1000

/-- 255 ms, the longest wait one delay-provider call can realise (R19, R95). -/
def longestWait : Nat := 255000000

/-- The constructor's configuration (R8). `lineCount` is `N` as the caller supplies it: R19 checks it against the mode.
`initCursor` and `initBlink` are the OPEN parameters of R17. -/
structure Config where
  mode : BusMode
  lineCount : Nat
  initCursor : Bool
  initBlink : Bool
  delays : DelayTable
  deriving DecidableEq, Repr

/-- The configuration the reset state is constructed with.
DESIGN CHOICE (log 1): the spec gives `cfg` as the constructor's argument and fixes no value; `FourLine`, cursor and blink
off, and the reference delays of R114 stand here. Unsafe if read as the hardware's own values. -/
def Config.atReset : Config where
  mode := .fourLine
  lineCount := 4
  initCursor := false
  initBlink := false
  delays := .reference

end Sys2Proof
end

