-- ==== Sys2Proof/Syntax.lean ====
section
/-! DEFINITION. The operation set (spec/00_scope.md R2, spec/30_encoding.md R58): one constructor per row of
spec/opcode_table.json. -/

namespace Sys2Proof

/-- The direction operand of the two shift commands (R58). -/
inductive Direction where
  | left
  | right
  deriving DecidableEq, Repr

/-- The operations of the block. Character codes are unbounded naturals, since R82 and R83 say what happens to a code
that does not fit in 8 bits; a cursor position is the 8-bit operand of R77. -/
inductive Instr where
  /-- `write_char(c)`, R82. -/
  | writeChar (code : Nat)
  /-- `set_cursor_pos(pos)`, R77. -/
  | setCursorPos (pos : Byte)
  /-- `function_set` with its bus-width bit L as a mode, R80: emitted by initialization only. -/
  | functionSet (width : BusMode)
  /-- `shift_display(dir)`, R79. -/
  | shiftDisplay (dir : Direction)
  /-- `shift_cursor(dir)`, R78. -/
  | shiftCursor (dir : Direction)
  /-- `set_display_mode(on, cursor_visible, blink)`, R76. -/
  | setDisplayMode (on cursorVisible blink : Bool)
  /-- `entry_mode_set`, R81: emitted by initialization only. -/
  | entryModeSet
  /-- `reset()`, return-home, R74. -/
  | reset
  /-- `clear()`, clear-display, R75. -/
  | clear
  /-- `function_set_raw`, the raw write of initialization step 2, R64: emitted by initialization only. -/
  | functionSetRaw
  /-- `write_str(s)`, R83. -/
  | writeStr (codes : List Nat)
  /-- `new(cfg)`, the constructor, R59. -/
  | new (cfg : Config)
  /-- `drop()`, R111. -/
  | drop
  deriving DecidableEq, Repr

/-- The operations that have API call syntax (R58): all but the three that only initialization emits. -/
def Instr.isApi : Instr → Bool
  | .writeChar _ => true
  | .setCursorPos _ => true
  | .functionSet _ => false
  | .shiftDisplay _ => true
  | .shiftCursor _ => true
  | .setDisplayMode _ _ _ => true
  | .entryModeSet => false
  | .reset => true
  | .clear => true
  | .functionSetRaw => false
  | .writeStr _ => true
  | .new _ => true
  | .drop => true

end Sys2Proof
end

