-- ==== Sys2Proof/WellFormed.lean ====
section
/-! DEFINITION. Which operations are well formed as syntax: 8-bit character codes (spec/30_encoding.md R52) and the
configuration rule R19 of spec/10_state.md. The machine makes its own checks, in the order of R99
(Sys2Proof/Machine/Flags.lean, Sys2Proof/Machine/Operands.lean). -/

namespace Sys2Proof

/-- A delay lies between its lower bound and the longest wait (R19). -/
def delayInRange (low t : Nat) : Bool := decide (low ≤ t) && decide (t ≤ longestWait)

/-- Every delay of the table is in range (R19). -/
def DelayTable.wf (T : DelayTable) : Bool :=
  delayInRange DelayTable.lowerBounds.tPor T.tPor && delayInRange DelayTable.lowerBounds.tFs1 T.tFs1
    && delayInRange DelayTable.lowerBounds.tInit T.tInit && delayInRange DelayTable.lowerBounds.tClr T.tClr
    && delayInRange DelayTable.lowerBounds.tCmd T.tCmd && delayInRange DelayTable.lowerBounds.tData T.tData
    && delayInRange DelayTable.lowerBounds.tPw T.tPw && delayInRange DelayTable.lowerBounds.tPl T.tPl

/-- Configuration well-formedness (R19): the line count is the mode's and every delay is in range. -/
def Config.wf (c : Config) : Bool := c.lineCount == c.mode.lineCount && c.delays.wf

/-- A character code fits in 8 bits (R52, R99). -/
def codeFits (c : Nat) : Bool := decide (c ≤ 0xFF)

/-- An operation is well formed: its codes fit and its configuration is legal. Every other operand is legal in all its
values (R76, R77, R78, R79). -/
def Instr.wf : Instr → Bool
  | .writeChar c => codeFits c
  | .setCursorPos _ => true
  | .functionSet _ => true
  | .shiftDisplay _ => true
  | .shiftCursor _ => true
  | .setDisplayMode _ _ _ => true
  | .entryModeSet => true
  | .reset => true
  | .clear => true
  | .functionSetRaw => true
  | .writeStr cs => cs.all codeFits
  | .new cfg => cfg.wf
  | .drop => true

end Sys2Proof
end

