-- ==== Sys2Proof/Decode.lean ====
section
/-! DEFINITION. The decoder of bus words (spec/30_encoding.md R55, R56) and the encoder (R49 to R53), with the byte form
in which the host hands a word over. -/

namespace Sys2Proof

/-- Why a word is rejected. -/
inductive DecodeError where
  /-- `NotEmitted`: a word the block never emits (R56). -/
  | notEmitted
  /-- The byte form has neither one byte (a `NIB` word) nor two (a bus word). -/
  | badLength
  /-- A bit above the word's own width is set in the byte form. -/
  | strayBits
  deriving DecidableEq, Repr

/-- A row of the opcode map R55: a word belongs to it when `word & mask = pattern`. -/
structure BusRow where
  pattern : BusWord
  mask : BusWord
  build : BusWord → Instr

/-- The word belongs to the row. -/
def BusRow.fits (r : BusRow) (w : BusWord) : Bool := (w &&& r.mask) == r.pattern

/-- R: the direction field `W[2]` of the shift rows (R54). -/
def decodeDirection (w : BusWord) : Direction := if w.getLsbD 2 then .right else .left

/-- L: the bus-width field `W[4]` of function-set (R51, R55). -/
def decodeWidth (w : BusWord) : BusMode := if w.getLsbD 4 then .eightLine else .fourLine

/-- The opcode map of R55, in its order. -/
def busRows : List BusRow :=
  [ ⟨0x100, 0x100, fun w => .writeChar (w.extractLsb' 0 8).toNat⟩,
    ⟨0x080, 0x180, fun w => .setCursorPos ((w.extractLsb' 0 7).setWidth 8)⟩,
    ⟨0x028, 0x1EF, fun w => .functionSet (decodeWidth w)⟩,
    ⟨0x018, 0x1FB, fun w => .shiftDisplay (decodeDirection w)⟩,
    ⟨0x010, 0x1FB, fun w => .shiftCursor (decodeDirection w)⟩,
    ⟨0x008, 0x1F8, fun w => .setDisplayMode (w.getLsbD 2) (w.getLsbD 1) (w.getLsbD 0)⟩,
    ⟨0x006, 0x1FF, fun _ => .entryModeSet⟩,
    ⟨0x002, 0x1FF, fun _ => .reset⟩,
    ⟨0x001, 0x1FF, fun _ => .clear⟩ ]

/-- Classify a bus word by the first row that matches (R55); a word of no row is `NotEmitted` (R56). -/
def decodeBus (w : BusWord) : Except DecodeError Instr :=
  match busRows.find? (fun r => r.fits w) with
  | some r => .ok (r.build w)
  | none => .error .notEmitted

/-- Classify the 5-bit word of a `NIB` cycle: only `{0, 0b0010}` is ever emitted (R55). -/
def decodeNib (w : NibWord) : Except DecodeError Instr :=
  if w = 0x02 then .ok .functionSetRaw else .error .notEmitted

/-- Classify one word of the bus. -/
def decodeWire : WireWord → Except DecodeError Instr
  | .bus w => decodeBus w
  | .nib w => decodeNib w

/-- Read a word from its byte form: one byte holds a `NIB` word, two bytes hold a bus word, low byte first.
DESIGN CHOICE (log 2): the block stores no words, so the byte form is the model's own. -/
def wireOfBytes : List Byte → Except DecodeError WireWord
  | [b] => if b.toNat < 2 ^ 5 then .ok (.nib (b.setWidth 5)) else .error .strayBits
  | [b, r] => if r.toNat < 2 then .ok (.bus (r.setWidth 1 ++ b)) else .error .strayBits
  | _ => .error .badLength

/-- The decoder on any bytes: total, and every rejection has a name. -/
def decode (bytes : List Byte) : Except DecodeError Instr :=
  match wireOfBytes bytes with
  | .ok w => decodeWire w
  | .error e => .error e

/-- The low `n` bytes of `w`, the least significant first. -/
def bytesOf : Nat → Nat → List Byte
  | 0, _ => []
  | n + 1, w => BitVec.ofNat 8 w :: bytesOf n (w / 256)

/-- What the decoder reads from an instruction word of `nbits` bits numbered as spec/opcode_table.json numbers them. -/
def decodeTableWord (nbits w : Nat) : Option Instr :=
  match decode (bytesOf ((nbits + 7) / 8) w) with
  | .ok i => some i
  | .error _ => none

/-- `{0, b}`: the bus word of a command byte (R49). -/
def commandWord (b : Byte) : BusWord := 0#1 ++ b

/-- `{1, c}`: the bus word of a character code (R52). -/
def dataWord (c : Nat) : BusWord := 1#1 ++ BitVec.ofNat 8 c

/-- The direction bit R (R54). -/
def directionBit : Direction → BitVec 1
  | .left => 0#1
  | .right => 1#1

/-- The bus-width bit L of function-set (R53). -/
def widthBit : BusMode → BitVec 1
  | .eightLine => 1#1
  | .fourLine => 0#1

/-- The word of the raw function-set write: a `CYC8` word in `EightLine`, a `NIB` word in `FourLine` (R50, R64). -/
def rawWord : BusMode → WireWord
  | .eightLine => .bus (commandWord 0x38)
  | .fourLine => .nib 0x02

/-- The words an operation puts on the bus of an instance of mode `m`, field by field from the layouts of R51 and R52.
The constructor's words are those of its own configuration's initialization sequence (R61); `drop` has none (R111). -/
def encode (m : BusMode) : Instr → List WireWord
  | .writeChar c => [.bus (dataWord c)]
  | .setCursorPos pos => [.bus (commandWord (1#1 ++ pos.extractLsb' 0 7))]
  | .functionSet width => [.bus (commandWord (0b001#3 ++ widthBit width ++ 0b1000#4))]
  | .shiftDisplay dir => [.bus (commandWord (0b00011#5 ++ directionBit dir ++ 0b00#2))]
  | .shiftCursor dir => [.bus (commandWord (0b00010#5 ++ directionBit dir ++ 0b00#2))]
  | .setDisplayMode on cursorVisible blink =>
      [.bus (commandWord (0b00001#5 ++ BitVec.ofBool on ++ BitVec.ofBool cursorVisible ++ BitVec.ofBool blink))]
  | .entryModeSet => [.bus (commandWord 0b00000110#8)]
  | .reset => [.bus (commandWord 0b00000010#8)]
  | .clear => [.bus (commandWord 0b00000001#8)]
  | .functionSetRaw => [rawWord m]
  | .writeStr cs => cs.map (fun c => .bus (dataWord c))
  | .new cfg =>
      [ rawWord cfg.mode,
        .bus (commandWord (0b001#3 ++ widthBit cfg.mode ++ 0b1000#4)),
        .bus (commandWord (0b000011#6 ++ BitVec.ofBool cfg.initCursor ++ BitVec.ofBool cfg.initBlink)),
        .bus (commandWord 0b00000001#8),
        .bus (commandWord 0b00000110#8) ]
  | .drop => []

/-- What the word of the raw write is classified as: in `EightLine` it is the function-set word (R55). -/
def rawOnWire : BusMode → Instr
  | .eightLine => .functionSet .eightLine
  | .fourLine => .functionSetRaw

/-- What the words of an operation stand for when each is classified on its own (R55): the masked cursor position, one
`write_char` per character of a string, the five words of an initialization. -/
def Instr.onWire (m : BusMode) : Instr → List Instr
  | .writeChar c => [.writeChar c]
  | .setCursorPos pos => [.setCursorPos (pos &&& 0x7F)]
  | .functionSet width => [.functionSet width]
  | .shiftDisplay dir => [.shiftDisplay dir]
  | .shiftCursor dir => [.shiftCursor dir]
  | .setDisplayMode on cursorVisible blink => [.setDisplayMode on cursorVisible blink]
  | .entryModeSet => [.entryModeSet]
  | .reset => [.reset]
  | .clear => [.clear]
  | .functionSetRaw => [rawOnWire m]
  | .writeStr cs => cs.map .writeChar
  | .new cfg =>
      [ rawOnWire cfg.mode,
        .functionSet cfg.mode,
        .setDisplayMode true cfg.initCursor cfg.initBlink,
        .clear,
        .entryModeSet ]
  | .drop => []

/-- The byte form of a word, as `wireOfBytes` reads it. -/
def wireBytes : WireWord → List Byte
  | .bus w => [w.extractLsb' 0 8, (w.extractLsb' 8 1).setWidth 8]
  | .nib w => [w.setWidth 8]

/-- Classify a list of words, each on its own. -/
def decodeWords : List WireWord → Option (List Instr)
  | [] => some []
  | w :: ws =>
    match decode (wireBytes w), decodeWords ws with
    | .ok i, some is => some (i :: is)
    | _, _ => none

end Sys2Proof
end

