-- ==== Sys2Proof/Machine/Operands.lean ====
section
/-! DEFINITION. Operand assembly: the command byte of each command from its arguments (spec/30_encoding.md R53, R54;
spec/41_commands.md), and the operand checks of the refusals (spec/60_exceptions.md R99; spec/10_state.md R19). -/

namespace Sys2Proof.Machine

/-- A Bool as a field of a command byte: `true = 1`, `false = 0` (R53). -/
def flagBit (b : Bool) : Byte := if b then 1 else 0

/-- Clear-display, `0000_0001` (R75). -/
def clearByte : Byte := 0b00000001

/-- Return-home, `0000_0010` (R74). -/
def returnHomeByte : Byte := 0b00000010

/-- Entry-mode-set with increment and no shift, `0000_0110` (R81).
The layout is the spec's own from general knowledge (D9). -/
def entryModeByte : Byte := 0b0000_0100 ||| (1 <<< 1)

/-- Display-on/off-control, `0000_1DCB` (R76). -/
def displayControlByte (on cursorVisible blink : Bool) : Byte :=
  0b0000_1000 ||| (flagBit on <<< 2) ||| (flagBit cursorVisible <<< 1) ||| flagBit blink

/-- R of the shift commands: `Left` is 0, `Right` is 1 (R54). -/
def directionField : Direction → Byte
  | .left => 0
  | .right => 1

/-- Cursor shift, `0001_0R00` (R78). -/
def cursorShiftByte (dir : Direction) : Byte := 0b0001_0000 ||| (directionField dir <<< 2)

/-- Display shift, `0001_1R00` (R79). -/
def displayShiftByte (dir : Direction) : Byte := 0b0001_1000 ||| (directionField dir <<< 2)

/-- Set-DDRAM-address: the position masked to 7 bits under a set bit 7 (R77). -/
def cursorPosByte (pos : Byte) : Byte := 0b1000_0000 ||| (pos &&& 0b0111_1111)

/-- L of function-set: 1 for `EightLine`, 0 for `FourLine` (R53). -/
def widthField : BusMode → Byte
  | .eightLine => 1
  | .fourLine => 0

/-- `funcset(MODE)`: two-line, 5×8 font (R80). The layout is the spec's own from general knowledge (D8). -/
def functionSetByte (m : BusMode) : Byte := 0b0010_0000 ||| (widthField m <<< 4) ||| (1 <<< 3) ||| (0 <<< 2)

/-- The byte a character code is sent as (R52); only codes that fit in 8 bits are ever sent (R99). -/
def codeByte (c : Nat) : Byte := BitVec.ofNat 8 c

/-- A character code above `0xFF` is refused (R99, `CodeTooWide`). -/
def codeTooWide (c : Nat) : Bool := decide (0xFF < c)

/-- One delay lies between its lower bound and 255 ms (R19). -/
def delayAccepted (low t : Nat) : Bool := decide (low ≤ t ∧ t ≤ 255000000)

/-- The constructor's check of its configuration (R19): `N` matches `MODE`, and each delay of R114 is in range. -/
def configAccepted (c : Config) : Bool :=
  (c.lineCount == match c.mode with | .eightLine => 8 | .fourLine => 4)
    && delayAccepted 15000000 c.delays.tPor
    && delayAccepted 4100000 c.delays.tFs1
    && delayAccepted 100000 c.delays.tInit
    && delayAccepted 1520000 c.delays.tClr
    && delayAccepted 50000 c.delays.tCmd
    && delayAccepted 100000 c.delays.tData
    && delayAccepted 450 c.delays.tPw
    && delayAccepted 550 c.delays.tPl

end Sys2Proof.Machine
end

