-- ==== Sys2Proof/Machine/Bus.lean ====
section
/-! DEFINITION. The lines and their latches (spec/10_state.md R21 to R24), the actions of the sequencer
(spec/00_scope.md R12), and the transfer primitives as lists of actions (spec/43_bus_transfer.md R85 to R89). -/

namespace Sys2Proof.Machine

/-- What a line latch holds (R11). `unknown`: the block has not yet driven the line. -/
inductive Level where
  | low
  | high
  | unknown
  deriving DecidableEq, Repr

/-- `lvl(b)`: `lvl(1) = High`, `lvl(0) = Low` (R11). -/
def lvl (b : Bool) : Level := if b then .high else .low

/-- The line names (R11). -/
inductive Line where
  | rs
  | en
  | d (i : Nat)
  deriving DecidableEq, Repr

/-- An action of the sequencer, and the event it leaves in the trace (R12, R26). A line can only be driven `High` or
`Low`, so a `Drive` carries the bit it drives: `drive l b` is `Drive(l, lvl(b))`. -/
inductive Action where
  | drive (l : Line) (bit : Bool)
  | wait (t : Nat)
  deriving DecidableEq, Repr

/-- The `N + 2` output-line latches; `data[i]` is `line[D[i]]` (R21 to R24). -/
structure Lines where
  rs : Level
  en : Level
  data : List Level
  deriving DecidableEq, Repr

/-- Every line `Unknown`, as at construction entry (R32). -/
def Lines.unknown (n : Nat) : Lines := ⟨.unknown, .unknown, List.replicate n .unknown⟩

/-- The line is one of the instance's own (R24). -/
def Lines.has (L : Lines) : Line → Bool
  | .rs => true
  | .en => true
  | .d i => decide (i < L.data.length)

/-- `line[l]` (R12); a line the instance does not have reads `Unknown`. -/
def Lines.level (L : Lines) : Line → Level
  | .rs => L.rs
  | .en => L.en
  | .d i => L.data.getD i .unknown

/-- `line[l] <- v` (R27). -/
def Lines.set (L : Lines) (l : Line) (v : Level) : Lines :=
  match l with
  | .rs => { L with rs := v }
  | .en => { L with en := v }
  | .d i => { L with data := L.data.set i v }

/-- RS and every data line have been driven, so the bus has a value (R91). -/
def Lines.known (L : Lines) : Bool := L.rs != .unknown && L.data.all (fun v => v != .unknown)

/-- The effect of one action on the latches (R27): a `Drive` sets its line, a `Wait` changes nothing. -/
def Action.apply (a : Action) (L : Lines) : Lines :=
  match a with
  | .drive l b => L.set l (lvl b)
  | .wait _ => L

/-- The effect of a list of actions on the latches, in order (R26). -/
def applyAll (L : Lines) : List Action → Lines
  | [] => L
  | a :: as => applyAll (a.apply L) as

/-- `Pulse()`, the enable pulse (R89). -/
def pulse (T : DelayTable) : List Action :=
  [.drive .en true, .wait T.tPw, .drive .en false, .wait T.tPl]

/-- Drive all 8 data lines from the byte, bit i to line i, in ascending line order (R38, R87). -/
def driveByte (b : Byte) : List Action :=
  [.drive (.d 0) (b.getLsbD 0), .drive (.d 1) (b.getLsbD 1), .drive (.d 2) (b.getLsbD 2), .drive (.d 3) (b.getLsbD 3),
   .drive (.d 4) (b.getLsbD 4), .drive (.d 5) (b.getLsbD 5), .drive (.d 6) (b.getLsbD 6), .drive (.d 7) (b.getLsbD 7)]

/-- Drive the 4 data lines from a nibble, bit j to line j (R39, R88). -/
def driveNibble (v : BitVec 4) : List Action :=
  [.drive (.d 0) (v.getLsbD 0), .drive (.d 1) (v.getLsbD 1), .drive (.d 2) (v.getLsbD 2), .drive (.d 3) (v.getLsbD 3)]

/-- `Transfer(b)`: one cycle in `EightLine` (R87), two in `FourLine` with the high nibble first (R88). -/
def transfer (m : BusMode) (T : DelayTable) (b : Byte) : List Action :=
  match m with
  | .eightLine => driveByte b ++ pulse T
  | .fourLine => driveNibble (b.extractLsb' 4 4) ++ pulse T ++ driveNibble (b.extractLsb' 0 4) ++ pulse T

/-- `CommandCycle(b, t)` (R85). -/
def commandCycle (cfg : Config) (b : Byte) (t : Nat) : List Action :=
  .drive .rs false :: (transfer cfg.mode cfg.delays b ++ [.wait t])

/-- `DataCycle(c)` (R86). -/
def dataCycle (cfg : Config) (c : Byte) : List Action :=
  .drive .rs true :: (transfer cfg.mode cfg.delays c ++ [.drive .rs false, .wait cfg.delays.tData])

/-- The data cycles of a string, one per character in order (R83). -/
def stringCycles (cfg : Config) : List Nat → List Action
  | [] => []
  | c :: cs => dataCycle cfg (codeByte c) ++ stringCycles cfg cs

/-- `raw_funcset(MODE)`: no RS drive and no settle wait (R64). The values are the spec's own (D7). -/
def rawFunctionSet (cfg : Config) : List Action :=
  match cfg.mode with
  | .eightLine => driveByte 0x38 ++ pulse cfg.delays
  | .fourLine => driveNibble 0x2 ++ pulse cfg.delays

/-- The eight steps of initialization, steps 0 to 7 (R62 to R69). -/
def initSteps (cfg : Config) : List (List Action) :=
  [ [.drive .rs false, .drive .en false],
    [.wait cfg.delays.tPor],
    rawFunctionSet cfg,
    [.wait cfg.delays.tFs1],
    commandCycle cfg (functionSetByte cfg.mode) cfg.delays.tInit,
    commandCycle cfg (displayControlByte true cfg.initCursor cfg.initBlink) cfg.delays.tInit,
    commandCycle cfg clearByte cfg.delays.tClr,
    commandCycle cfg entryModeByte cfg.delays.tInit ]

/-- `init_seq(cfg)`, the concatenation of the steps (R61). -/
def initSeq (cfg : Config) : List Action := (initSteps cfg).flatten

end Sys2Proof.Machine
end

