-- ==== Sys2Proof/Machine/State.lean ====
section
/-! DEFINITION. The architectural state (spec/10_state.md R15 to R32), the reasons a request is refused
(spec/60_exceptions.md R99), and the state at construction entry, which is the block's reset (R112). -/

namespace Sys2Proof.Machine

/-- The operations whose expansion the sequencer can be running: the `op` of `Running(op)` (R25). The three that only
initialization emits are none of them: they run in `Constructing` (R58, R64, R80, R81). -/
inductive OpName where
  | writeChar
  | setCursorPos
  | shiftDisplay
  | shiftCursor
  | setDisplayMode
  | reset
  | clear
  | writeStr
  deriving DecidableEq, Repr

/-- The sequencer phase (R25). -/
inductive Phase where
  | constructing
  | ready
  | running (op : OpName)
  | dropped
  deriving DecidableEq, Repr

/-- The refusal reasons of R99, a closed list. -/
inductive RefuseReason where
  /-- The constructor, for a configuration that R19 forbids. -/
  | configIllFormed
  /-- Any operation while `phase` is `Constructing` or `Running(_)`. -/
  | notReady
  /-- Any operation while `phase` is `Dropped`. -/
  | dropped
  /-- `write_char` and `write_str`, for a character code above `0xFF`. -/
  | codeTooWide
  deriving DecidableEq, Repr

/-- What the outside world does next (R45, R48, R98, R108). MODEL's own: the spec gives the block no input queue, and
the callers' behaviour stands here as data (log 3). -/
inductive Input where
  /-- The owner's call: it is made once the block can take it (R45). -/
  | call (i : Instr)
  /-- A call made now, whatever the phase: a caller that does not serialize, or a host that restarts (R98, R119). -/
  | overlap (i : Instr)
  /-- Nobody calls: the sequencer takes one action (R27). -/
  | pass
  deriving DecidableEq, Repr

/-- The state of one driver instance, `{ cfg, line, phase, pending, trace }` (R15), with the refusal mark of R99 and
the model's own input list. -/
structure State where
  /-- `cfg` (R16 to R18). -/
  cfg : Config
  /-- `line`, the output-line latches (R21 to R23). -/
  lines : Lines
  /-- `phase` (R25). -/
  phase : Phase
  /-- `pending`, the actions still to perform, next one first (R26). -/
  pending : List Action
  /-- `trace`, the events emitted since construction, oldest first (R28). -/
  trace : List Action
  /-- The refusal mark, "kept for the whole run" (R99): every refusal so far, oldest first. -/
  refusals : List RefuseReason
  /-- MODEL's own: the inputs still to come, next one first (log 3). -/
  inputs : List Input
  deriving DecidableEq, Repr

/-- Why the sequencer stops for good. The block itself raises no exception (R96); both are safe, and no run reaches
either: they stop states that no construction leads to. -/
inductive Fault where
  /-- The sequencer's `Drive(EN, High)` with RS or a data line still `Unknown`: the latch-log entry would be `Undefined`,
  which spec/93_implementation_defined.md U2 makes a fault. Safe. -/
  | latchUndefined
  /-- The sequencer's `Drive` of a data line the instance does not have: the block drives no line other than its own
  (R24, R107). Safe. -/
  | absentLine
  deriving DecidableEq, Repr

/-- Why a request has no meaning at all. The refusals of R99 are not here: the machine records those and goes on. -/
inductive Refusal where
  /-- Raised by `exec` for an instruction that has no meaning yet. Safe. -/
  | notModelled (mnemonic : String)
  /-- Raised on an idle block by `function_set_raw`, `function_set` and `entry_mode_set`, which only initialization emits
  (R58, R64, R80, R81). Safe. -/
  | notEmitted
  deriving DecidableEq, Repr

/-- The state right after reset: construction is the block's reset (R112), and this is the column "at construction
entry" of R32, for the configuration `Config.atReset` (log 1). -/
def State.reset : State where
  cfg := Config.atReset
  lines := Lines.unknown Config.atReset.lineCount
  phase := .constructing
  pending := initSeq Config.atReset
  trace := []
  refusals := []
  inputs := []

end Sys2Proof.Machine
end

