-- ==== Sys2Proof/Machine/Flags.lean ====
section
/-! DEFINITION. The block has no status flag and no condition code (spec/10_state.md R29). The one mark it keeps is the
refusal mark, and this file says when a request is refused and what that changes (spec/60_exceptions.md R98, R99). -/

namespace Sys2Proof.Machine

/-- `refuse(reason)` (R12, R99): no event, and no change of state but the mark. -/
def State.markRefused (s : State) (r : RefuseReason) : State := { s with refusals := s.refusals ++ [r] }

/-- Why an operation call is not accepted in this state, if it is not (R98): only `Ready` with nothing pending accepts.
`Ready` with actions pending is no state of the block (R26); it counts as not ready (DESIGN CHOICE, log 5). -/
def State.acceptanceRefusal (s : State) : Option RefuseReason :=
  match s.phase with
  | .ready => if s.pending.isEmpty then none else some .notReady
  | .constructing => some .notReady
  | .running _ => some .notReady
  | .dropped => some .dropped

/-- The refusal of a write's codes, checked before any event (R83, R99). -/
def codesRefusal (codes : List Nat) : Option RefuseReason :=
  if codes.any codeTooWide then some .codeTooWide else none

end Sys2Proof.Machine
end

