-- ==== Sys2Proof/Machine/Ops.lean ====
section
/-! DEFINITION. The shared operations: accepting an operation, building and dropping an instance, the sequencer step, and
the choice of what happens next (spec/10_state.md R25 to R27; spec/60_exceptions.md R98, R99, R111). The block takes no
exception and returns from none (R96, R103): a request it refuses is recorded by `State.markRefused`. -/

namespace Sys2Proof.Machine

/-- An operation is accepted: `phase <- Running(op)`, `pending <-` its expansion (R25, R73). -/
def State.begin (s : State) (op : OpName) (expansion : List Action) : State :=
  { s with phase := .running op, pending := expansion }

/-- `phase <- Ready` (R25). -/
def State.becomeReady (s : State) : State := { s with phase := .ready }

/-- `phase <- Dropped`; the lines keep their levels (R111). -/
def State.becomeDropped (s : State) : State := { s with phase := .dropped }

/-- Perform an action: its effect on the latches, its event in the trace, and the rest left pending (R27). -/
def State.emit (s : State) (a : Action) (rest : List Action) : State :=
  { s with lines := a.apply s.lines, trace := s.trace ++ [a], pending := rest }

/-- The inputs that are left. -/
def State.withInputs (s : State) (inputs : List Input) : State := { s with inputs := inputs }

/-- A new instance at construction entry (R59, R32): nothing carries over from an earlier one (R112) but the run's
refusal mark (R99) and what the outside world will still do. -/
def State.construct (s : State) (cfg : Config) : State where
  cfg := cfg
  lines := Lines.unknown cfg.lineCount
  phase := .constructing
  pending := initSeq cfg
  trace := []
  refusals := s.refusals
  inputs := s.inputs

/-- Accept an operation call or refuse it (R98, R99): `operand` is the refusal its operands call for, if any, and it
comes after the refusals for the phase. -/
def accept (op : OpName) (operand : Option RefuseReason) (expansion : List Action) (s : State) :
    Host.Outcome State Fault Refusal :=
  match s.acceptanceRefusal with
  | some r => .next (s.markRefused r)
  | none =>
    match operand with
    | some r => .next (s.markRefused r)
    | none => .next (s.begin op expansion)

/-- Why an action cannot be performed on these latches, if it cannot (R24, U2). -/
def Action.fault (a : Action) (L : Lines) : Option Fault :=
  match a with
  | .wait _ => none
  | .drive l b =>
    if !L.has l then some .absentLine
    else if l = .en && b && !L.known then some .latchUndefined
    else none

/-- The sequencer step (R27): perform the head of `pending`; with nothing pending, the phase becomes `Ready`.
Where R27 has no step, the block waits for a caller and its state stays as it is (DESIGN CHOICE, log 6). -/
def State.sequence (s : State) : Host.Outcome State Fault Refusal :=
  match s.pending with
  | a :: rest =>
    match a.fault s.lines with
    | some f => .fault f
    | none => .next (s.emit a rest)
  | [] =>
    match s.phase with
    | .constructing => .next s.becomeReady
    | .running _ => .next s.becomeReady
    | .ready => .next s
    | .dropped => .next s

/-- `k` sequencer steps (R27), stopping at the first fault. -/
def State.sequenceTimes : Nat → State → Host.Outcome State Fault Refusal
  | 0, s => .next s
  | k + 1, s =>
    match s.sequence with
    | .next t => State.sequenceTimes k t
    | .fault f => .fault f
    | .refused r => .refused r

/-- The step of initialization that emits an operation, for the three that only initialization emits (R58, R64, R66, R69,
R80, R81). -/
def emittingStep : Instr → Option Nat
  | .writeChar _ => none
  | .setCursorPos _ => none
  | .functionSet _ => some 4
  | .shiftDisplay _ => none
  | .shiftCursor _ => none
  | .setDisplayMode _ _ _ => none
  | .entryModeSet => some 7
  | .reset => none
  | .clear => none
  | .functionSetRaw => some 2
  | .writeStr _ => none
  | .new _ => none
  | .drop => none

/-- The actions of initialization step k (R61). -/
def initStep (cfg : Config) (k : Nat) : List Action := (initSteps cfg).getD k []

/-- The initialization FSM is about to begin step k: all earlier steps have been performed, and step k and everything after
it is pending (R61). -/
def State.atInitStep (s : State) (k : Nat) : Bool :=
  decide (s.phase = .constructing) && decide (s.pending = ((initSteps s.cfg).drop k).flatten)

/-- An operation that only initialization emits, at step k: where the FSM is about to begin that step, and the operation is
the instance's `own`, it is that step, performed by the sequencer's own steps (R27, R61). Anywhere else the block emits
none (R58): R98 and R99 say how a block that is busy or dropped refuses, and an idle one has no meaning for it (log 4). -/
def initializationOnly (k : Nat) (own : Bool) (s : State) : Host.Outcome State Fault Refusal :=
  if own && s.atInitStep k then s.sequenceTimes (initStep s.cfg k).length
  else
    match s.acceptanceRefusal with
    | some r => .next (s.markRefused r)
    | none => .refused .notEmitted

/-- Perform the actions `as`, `rest` being what is left pending: what as many sequencer steps come to (R27). -/
def State.perform (s : State) (as rest : List Action) : State :=
  { s with lines := applyAll s.lines as, trace := s.trace ++ as, pending := rest }

/-- A new instance of this configuration, brought to the beginning of initialization step k: what the actions of the
earlier steps come to from construction entry (R61). -/
def State.toInitStep (s : State) (cfg : Config) (k : Nat) : State :=
  (s.construct cfg).perform ((initSteps cfg).take k).flatten ((initSteps cfg).drop k).flatten

/-- The sequencer has no step to take (R27): nothing pending, and `Ready` or `Dropped`. -/
def State.idle (s : State) : Bool :=
  s.pending.isEmpty && (decide (s.phase = .ready) || decide (s.phase = .dropped))

/-- What the next step is: an operation call, or the sequencer's own step. -/
inductive Turn where
  | run (i : Instr) (s : State)
  | sequence (s : State)
  deriving DecidableEq, Repr

/-- Whose turn it is. The owner's call waits until the block is idle (R45); an overlapping call does not (R98). -/
def State.turn (s : State) : Turn :=
  match s.inputs with
  | [] => .sequence s
  | .pass :: rest => .sequence (s.withInputs rest)
  | .overlap i :: rest => .run i (s.withInputs rest)
  | .call i :: rest => if s.idle then .run i (s.withInputs rest) else .sequence s

/-- The state once everything pending has been performed and the phase has settled: what the sequencer steps of R27
come to when nothing else happens. -/
def State.settle (s : State) : State :=
  { s with
    lines := applyAll s.lines s.pending
    trace := s.trace ++ s.pending
    pending := []
    phase := match s.phase with
      | .constructing => .ready
      | .running _ => .ready
      | .ready => .ready
      | .dropped => .dropped }

end Sys2Proof.Machine
end

