-- ==== Sys2Proof/Machine/Commands.lean ====
section
/-! DEFINITION. The command operations of the API (spec/41_commands.md R73 to R79): each encodes its byte and is accepted
as one command cycle. -/

namespace Sys2Proof.Machine

/-- `reset()`, return-home, with the long settle delay (R74). -/
def execReset (s : State) : Host.Outcome State Fault Refusal :=
  accept .reset none (commandCycle s.cfg returnHomeByte s.cfg.delays.tClr) s

/-- `clear()`, clear-display, with the long settle delay (R75). -/
def execClear (s : State) : Host.Outcome State Fault Refusal :=
  accept .clear none (commandCycle s.cfg clearByte s.cfg.delays.tClr) s

/-- `set_display_mode(on, cursor_visible, blink)` (R76). -/
def execSetDisplayMode (on cursorVisible blink : Bool) (s : State) : Host.Outcome State Fault Refusal :=
  accept .setDisplayMode none (commandCycle s.cfg (displayControlByte on cursorVisible blink) s.cfg.delays.tCmd) s

/-- `set_cursor_pos(pos)` (R77). -/
def execSetCursorPos (pos : Byte) (s : State) : Host.Outcome State Fault Refusal :=
  accept .setCursorPos none (commandCycle s.cfg (cursorPosByte pos) s.cfg.delays.tCmd) s

/-- `shift_cursor(dir)` (R78). -/
def execShiftCursor (dir : Direction) (s : State) : Host.Outcome State Fault Refusal :=
  accept .shiftCursor none (commandCycle s.cfg (cursorShiftByte dir) s.cfg.delays.tCmd) s

/-- `shift_display(dir)` (R79). -/
def execShiftDisplay (dir : Direction) (s : State) : Host.Outcome State Fault Refusal :=
  accept .shiftDisplay none (commandCycle s.cfg (displayShiftByte dir) s.cfg.delays.tCmd) s

end Sys2Proof.Machine
end

