-- ==== Sys2Proof/Machine/DataWrites.lean ====
section
/-! DEFINITION. The data writes (spec/42_data_writes.md R82, R83). -/

namespace Sys2Proof.Machine

/-- `write_char(c)` (R82). -/
def execWriteChar (code : Nat) (s : State) : Host.Outcome State Fault Refusal :=
  accept .writeChar (codesRefusal [code]) (dataCycle s.cfg (codeByte code)) s

/-- `write_str(s)`: every code is checked before any event (R83). -/
def execWriteStr (codes : List Nat) (s : State) : Host.Outcome State Fault Refusal :=
  accept .writeStr (codesRefusal codes) (stringCycles s.cfg codes) s

end Sys2Proof.Machine
end

