-- ==== Sys2Proof/Machine/Initialization.lean ====
section
/-! DEFINITION. The three commands that only initialization emits (spec/40_initialization.md R64, R66, R69;
spec/41_commands.md R80, R81). They have no API syntax (spec/30_encoding.md R58): each runs at its own step of
initialization and nowhere else (log 4). -/

namespace Sys2Proof.Machine

/-- `function_set`, which only initialization step 4 emits (R66, R80). Its operand is `cfg.MODE`: with the width bit of the
other mode it is a word the block never emits (R56), since an instance's mode is immutable (R16; log 10). -/
def execFunctionSet (width : BusMode) (s : State) : Host.Outcome State Fault Refusal :=
  initializationOnly 4 (decide (width = s.cfg.mode)) s

/-- `function_set_raw`, the raw write of initialization step 2 (R64): it has no settle wait of its own, step 3's follows it
(R65, R115), and in `FourLine` it is the only lone nibble the block emits (R41, R119). -/
def execFunctionSetRaw (s : State) : Host.Outcome State Fault Refusal := initializationOnly 2 true s

/-- `entry_mode_set`, which only initialization step 7 emits (R69, R81). -/
def execEntryModeSet (s : State) : Host.Outcome State Fault Refusal := initializationOnly 7 true s

end Sys2Proof.Machine
end

