-- ==== Sys2Proof/Machine/Lifecycle.lean ====
section
/-! DEFINITION. The beginning and the end of an instance: the constructor (spec/40_initialization.md R59;
spec/70_reset_and_hazards.md R112) and `drop` (spec/60_exceptions.md R111). -/

namespace Sys2Proof.Machine

/-- `new(cfg)` (R59): an ill-formed configuration is refused before any event; a legal one makes a new instance at
construction entry, whose initialization the sequencer then runs. R59 sets no condition on what was there before: an
instance still alive is gone (R112, R119; log 7). -/
def execNew (cfg : Config) (s : State) : Host.Outcome State Fault Refusal :=
  if configAccepted cfg then .next (s.construct cfg) else .next (s.markRefused .configIllFormed)

/-- `drop()` (R111): accepted in `Ready`, no event. -/
def execDrop (s : State) : Host.Outcome State Fault Refusal :=
  match s.acceptanceRefusal with
  | some r => .next (s.markRefused r)
  | none => .next s.becomeDropped

end Sys2Proof.Machine
end

