-- ==== Sys2Proof/Machine/Dispatch.lean ====
section
/-! DEFINITION. One arm per operation: each is one call of its meaning. -/

namespace Sys2Proof.Machine

def exec (i : Instr) (s : State) : Host.Outcome State Fault Refusal :=
  match i with
  | .writeChar code => Sys2Proof.Machine.execWriteChar code s
  | .setCursorPos pos => Sys2Proof.Machine.execSetCursorPos pos s
  | .functionSet width => Sys2Proof.Machine.execFunctionSet width s
  | .shiftDisplay dir => Sys2Proof.Machine.execShiftDisplay dir s
  | .shiftCursor dir => Sys2Proof.Machine.execShiftCursor dir s
  | .setDisplayMode on cursorVisible blink => Sys2Proof.Machine.execSetDisplayMode on cursorVisible blink s
  | .entryModeSet => Sys2Proof.Machine.execEntryModeSet s
  | .reset => Sys2Proof.Machine.execReset s
  | .clear => Sys2Proof.Machine.execClear s
  | .functionSetRaw => Sys2Proof.Machine.execFunctionSetRaw s
  | .writeStr codes => Sys2Proof.Machine.execWriteStr codes s
  | .new cfg => Sys2Proof.Machine.execNew cfg s
  | .drop => Sys2Proof.Machine.execDrop s

end Sys2Proof.Machine
end

