-- ==== Sys2Proof/Machine/Step.lean ====
section
/-! DEFINITION. One step of the machine: the operation whose turn it is, or one step of the sequencer
(spec/10_state.md R27). The block fetches no instructions (spec/20_memory.md R48): its operations are its callers'. -/

namespace Sys2Proof.Machine

/-- One step. -/
def step (s : State) : Host.Outcome State Fault Refusal :=
  match s.turn with
  | .run i s' => exec i s'
  | .sequence s' => s'.sequence

/-- The configuration with the bus mode changed, and the line count with it (R8). -/
def withMode (cfg : Config) (m : BusMode) : Config := { cfg with mode := m, lineCount := m.lineCount }

/-- The state in which an instruction can run next (log 8): what is in progress is completed, as its sequencer steps
complete it. An operation that only initialization emits runs at its own step, so for it a new instance is brought there:
of the same configuration, and for `function_set` of the mode its width bit names (R80). -/
def State.stage (i : Instr) (s : State) : State :=
  match i with
  | .writeChar _ => s.settle
  | .setCursorPos _ => s.settle
  | .functionSet width => s.toInitStep (withMode s.cfg width) 4
  | .shiftDisplay _ => s.settle
  | .shiftCursor _ => s.settle
  | .setDisplayMode _ _ _ => s.settle
  | .entryModeSet => s.toInitStep s.cfg 7
  | .reset => s.settle
  | .clear => s.settle
  | .functionSetRaw => s.toInitStep s.cfg 2
  | .writeStr _ => s.settle
  | .new _ => s.settle
  | .drop => s.settle

/-- The state in which the very next step runs the instruction that the decoder reads from the word. A word that the
decoder rejects calls nothing. -/
def State.withFetchWord (s : State) (nbits w : Nat) : State :=
  match decodeTableWord nbits w with
  | some i => (s.stage i).withInputs (.overlap i :: s.inputs)
  | none => s.settle

end Sys2Proof.Machine
end

