-- ==== Sys2Proof/Machine/Delay.lean ====
section
/-! DEFINITION. Time: how a wait is realised by the delay provider (spec/43_bus_transfer.md R93 to R95), and the least
time a list of actions takes (spec/70_reset_and_hazards.md R123). Time is not state (spec/00_scope.md R13). -/

namespace Sys2Proof.Machine

/-- A call of the delay provider (R106): microseconds in 16 bits, milliseconds in 8. -/
inductive DelayCall where
  | microseconds (us : BitVec 16)
  | milliseconds (ms : BitVec 8)
  deriving DecidableEq, Repr

/-- `ceil(t / unit)`. -/
def ceilDiv (t unit : Nat) : Nat := (t + (unit - 1)) / unit

/-- `realise(t)`: the one delay-provider call of a `Wait(t)` (R95); none above 255 ms, which R19 keeps out. -/
def realise (t : Nat) : Option DelayCall :=
  if ceilDiv t 1000 ≤ 65535 then some (.microseconds (BitVec.ofNat 16 (ceilDiv t 1000)))
  else if ceilDiv t 1000000 ≤ 255 then some (.milliseconds (BitVec.ofNat 8 (ceilDiv t 1000000)))
  else none

/-- The duration a delay-provider call is asked for, in nanoseconds. -/
def DelayCall.requested : DelayCall → Nat
  | .microseconds us => us.toNat * 1000
  | .milliseconds ms => ms.toNat * 1000000

/-- The delay-provider calls of a list of actions, one per `Wait`, in order (R95). -/
def delayCalls : List Action → List (Option DelayCall)
  | [] => []
  | .wait t :: as => realise t :: delayCalls as
  | .drive _ _ :: as => delayCalls as

/-- The least time of a list of actions: the sum of its waits (R94, R123). -/
def minTime : List Action → Nat
  | [] => 0
  | .wait t :: as => t + minTime as
  | .drive _ _ :: as => minTime as

/-- An action may take this long: a `Wait(t)` any time from `t` up (R93), a `Drive` any time at all (R94).
A duration is a whole number of nanoseconds: the spec gives the unit and not the granularity (DESIGN CHOICE, log 18). -/
def Action.mayTake (a : Action) (duration : Nat) : Bool :=
  match a with
  | .wait t => decide (t ≤ duration)
  | .drive _ _ => true

/-- These durations are possible for these actions, one each (R93, R94). -/
def mayTakeAll : List Action → List Nat → Bool
  | [], [] => true
  | a :: as, t :: ts => a.mayTake t && mayTakeAll as ts
  | [], _ :: _ => false
  | _ :: _, [] => false

end Sys2Proof.Machine
end

