-- ==== Sys2Proof/Machine/Observe.lean ====
section
/-! DEFINITION. The observation (spec/00_scope.md R13): the latch log of a trace (spec/43_bus_transfer.md R91), the words
it carries (spec/30_encoding.md R50, R57), and the initialization state (spec/40_initialization.md R61). -/

namespace Sys2Proof.Machine

/-- An entry of the latch log: `(rs, value)`, or `Undefined` where a line it reads is `Unknown` (R91). -/
inductive LatchEntry where
  | word (rs : Bool) (value : Nat)
  | undefined
  deriving DecidableEq, Repr

/-- `bit(High) = 1`, `bit(Low) = 0` (R91). -/
def Level.bit : Level → Nat
  | .high => 1
  | .low => 0
  | .unknown => 0

/-- The data lines read as a number, `D[i]` being bit i (R91). -/
def busValue : List Level → Nat
  | [] => 0
  | v :: vs => v.bit + 2 * busValue vs

/-- The entry the controller latches from these lines (R91). -/
def Lines.latch (L : Lines) : LatchEntry :=
  if L.known then .word (L.rs == .high) (busValue L.data) else .undefined

/-- The latch log of a list of events, from the given line levels: one entry at each `Drive(EN, High)` (R91). -/
def latchLogFrom (L : Lines) : List Action → List LatchEntry
  | [] => []
  | .drive .en true :: as => L.latch :: latchLogFrom ((Action.drive .en true).apply L) as
  | a :: as => latchLogFrom (a.apply L) as

/-- The latch log of the instance (R91): its trace, walked from the `Unknown` lines of construction entry. -/
def State.latchLog (s : State) : List LatchEntry := latchLogFrom (Lines.unknown s.cfg.lineCount) s.trace

/-- The entries a word makes in the latch log: one per cycle, the high nibble first in `FourLine` (R50, R57). -/
def wireEntries (m : BusMode) : WireWord → List LatchEntry
  | .bus w =>
    match m with
    | .eightLine => [.word (w.getLsbD 8) (w.extractLsb' 0 8).toNat]
    | .fourLine => [.word (w.getLsbD 8) (w.extractLsb' 4 4).toNat, .word (w.getLsbD 8) (w.extractLsb' 0 4).toNat]
  | .nib w => [.word (w.getLsbD 4) (w.extractLsb' 0 4).toNat]

/-- The entries of a list of words. -/
def logOfWords (m : BusMode) : List WireWord → List LatchEntry
  | [] => []
  | w :: ws => wireEntries m w ++ logOfWords m ws

/-- Pair the nibbles of a `FourLine` log into bus words, high nibble first (R57). -/
def pairNibbles : List LatchEntry → Option (List WireWord)
  | [] => some []
  | .word rs hi :: .word rs' lo :: rest =>
    if rs = rs' then
      (pairNibbles rest).map
        (fun ws => .bus (BitVec.ofBool rs ++ BitVec.ofNat 4 hi ++ BitVec.ofNat 4 lo) :: ws)
    else none
  | _ => none

/-- The bus words of an `EightLine` log, one an entry (R57). -/
def byteWords : List LatchEntry → Option (List WireWord)
  | [] => some []
  | .word rs v :: rest =>
    (byteWords rest).map (fun ws => .bus (BitVec.ofBool rs ++ BitVec.ofNat 8 v) :: ws)
  | .undefined :: _ => none

/-- The words of a whole latch log (R57): in `FourLine` the first entry is the lone nibble of initialization step 2. -/
def wordsOfLog (m : BusMode) (log : List LatchEntry) : Option (List WireWord) :=
  match m, log with
  | .eightLine, log => byteWords log
  | .fourLine, [] => some []
  | .fourLine, .word rs v :: rest =>
    (pairNibbles rest).map (fun ws => .nib (BitVec.ofBool rs ++ BitVec.ofNat 4 v) :: ws)
  | .fourLine, .undefined :: _ => none

/-- The step of a list of steps that the remaining actions fall in, counted from `k`: the last one whose later steps
are shorter than what remains. -/
def stepReached (k : Nat) : List (List Action) → Nat → Option Nat
  | [], _ => none
  | _ :: later, remaining =>
    if later.flatten.length < remaining then some k else stepReached (k + 1) later remaining

/-- The state `I0` to `I7` of the initialization FSM, while it runs (R61): `Ik` while `pending` holds events of step k. -/
def State.initState (s : State) : Option Nat :=
  match s.phase with
  | .constructing => stepReached 0 (initSteps s.cfg) s.pending.length
  | .ready => none
  | .running _ => none
  | .dropped => none

end Sys2Proof.Machine
end

