-- ==== Sys2Proof/Safety.lean ====
section
/-! DEFINITION. What counts as a safe run, in the terms claims use: the expansion of each operation, the history of an
instance, the invariant of its states, and the properties of a list of events (spec/10_state.md R15 to R32;
spec/43_bus_transfer.md R89, R90; spec/70_reset_and_hazards.md R115). -/

namespace Sys2Proof.Machine

/-- The expansion of an operation: the actions it puts in `pending` (R26). The constructor's is `init_seq` of its own
configuration (R59), `drop` has none (R111). -/
def expansion (cfg : Config) : Instr → List Action
  | .writeChar c => dataCycle cfg (codeByte c)
  | .setCursorPos pos => commandCycle cfg (cursorPosByte pos) cfg.delays.tCmd
  | .functionSet width => commandCycle cfg (functionSetByte width) cfg.delays.tInit
  | .shiftDisplay dir => commandCycle cfg (displayShiftByte dir) cfg.delays.tCmd
  | .shiftCursor dir => commandCycle cfg (cursorShiftByte dir) cfg.delays.tCmd
  | .setDisplayMode on cursorVisible blink =>
      commandCycle cfg (displayControlByte on cursorVisible blink) cfg.delays.tCmd
  | .entryModeSet => commandCycle cfg entryModeByte cfg.delays.tInit
  | .reset => commandCycle cfg returnHomeByte cfg.delays.tClr
  | .clear => commandCycle cfg clearByte cfg.delays.tClr
  | .functionSetRaw => rawFunctionSet cfg
  | .writeStr codes => stringCycles cfg codes
  | .new cfg' => initSeq cfg'
  | .drop => []

/-- The name under which an operation runs, for those that do (R25): not the constructor, not the three that
initialization emits, which run in `Constructing` (R58), and not `drop`. -/
def opName : Instr → Option OpName
  | .writeChar _ => some .writeChar
  | .setCursorPos _ => some .setCursorPos
  | .functionSet _ => none
  | .shiftDisplay _ => some .shiftDisplay
  | .shiftCursor _ => some .shiftCursor
  | .setDisplayMode _ _ _ => some .setDisplayMode
  | .entryModeSet => none
  | .reset => some .reset
  | .clear => some .clear
  | .functionSetRaw => none
  | .writeStr _ => some .writeStr
  | .new _ => none
  | .drop => none

/-- An operation that an idle instance runs: it runs under a name of its own, and its codes fit (R25, R98, R99). -/
def runsWhenReady (i : Instr) : Bool := (opName i).isSome && i.wf

/-- The actions of a sequence of operations, in program order (R45). -/
def expansions (cfg : Config) (ops : List Instr) : List Action := ops.flatMap (expansion cfg)

/-- Everything an instance has done and will yet do for the operations it has accepted is its initialization followed by
whole expansions of operations of the API: none of them is one that only initialization emits (R43, R45, R58, R72). -/
def State.History (s : State) : Prop :=
  ∃ ops : List Instr, (∀ i ∈ ops, runsWhenReady i = true ∧ i.isApi = true) ∧
    s.trace ++ s.pending = initSeq s.cfg ++ expansions s.cfg ops

/-- The invariant of an instance's states. -/
structure State.Inv (s : State) : Prop where
  /-- No instance is built from an ill-formed configuration (R19). -/
  configLegal : s.cfg.wf = true
  /-- The latches hold what the events drove, from the `Unknown` of construction entry (R27, R28, R32). -/
  linesReplay : s.lines = applyAll (Lines.unknown s.cfg.lineCount) s.trace
  /-- Nothing is pending in `Ready` or `Dropped` (R26). -/
  idleEmpty : s.phase = .ready ∨ s.phase = .dropped → s.pending = []
  /-- In `Constructing` there is the initialization and nothing else (R25, R61). -/
  constructingInit : s.phase = .constructing → s.trace ++ s.pending = initSeq s.cfg
  /-- The events are whole operations of the API in program order (R43, R45, R58), whatever the callers do. -/
  history : s.History

/-- The operation an input calls, if any. -/
def Input.instr : Input → Option Instr
  | .call i => some i
  | .overlap i => some i
  | .pass => none

/-- The callers use the API only (R58): every call still to come is one with API syntax. -/
def State.apiInputs (s : State) : Bool :=
  s.inputs.all (fun x => match x.instr with | some i => i.isApi | none => true)

/-- The invariant of an instance whose callers use the API only (R58). -/
structure State.ApiInv (s : State) : Prop where
  inv : s.Inv
  apiCalls : s.apiInputs = true

/-- The next input, if there is one, is not a call that cuts in: what is pending is performed first (R45). -/
def State.undisturbed (s : State) : Prop := s.inputs = [] ∨ ∃ i rest, s.inputs = .call i :: rest

/-- `k` steps of the machine, stopping at the first fault or refusal. -/
def steps : Nat → State → Host.Outcome State Fault Refusal
  | 0, s => .next s
  | k + 1, s =>
    match step s with
    | .next t => steps k t
    | .fault f => .fault f
    | .refused r => .refused r

/-- Bus stability (R90): from here on, with EN `High` or not, no `Drive` of RS or of a data line falls while EN is
`High`. -/
def busStable (enHigh : Bool) : List Action → Bool
  | [] => true
  | .wait _ :: as => busStable enHigh as
  | .drive .en b :: as => busStable b as
  | .drive .rs _ :: as => !enHigh && busStable enHigh as
  | .drive (.d _) _ :: as => !enHigh && busStable enHigh as

/-- Every enable pulse is whole (R89): from `Drive(EN, High)` the events are `Wait(T_PW)`, `Drive(EN, Low)`,
`Wait(T_PL)`, and EN is driven `High` nowhere else. -/
def pulsesWhole (T : DelayTable) : List Action → Bool
  | .drive .en true :: .wait a :: .drive .en false :: .wait b :: as =>
      decide (a = T.tPw) && decide (b = T.tPl) && pulsesWhole T as
  | .drive .en true :: _ => false
  | _ :: as => pulsesWhole T as
  | [] => true

/-- The lower bound of the settle delay an operation's last byte is followed by (R114): the long commands (R117), a
character (R82), initialization's commands (R66, R69), any other command (R73). The raw write's is the wait of step 3,
which follows it (R65, R115); `drop` sends nothing; the constructor's last byte is entry-mode-set. -/
def settleBound : Instr → Nat
  | .writeChar _ => 100000
  | .setCursorPos _ => 50000
  | .functionSet _ => 100000
  | .shiftDisplay _ => 50000
  | .shiftCursor _ => 50000
  | .setDisplayMode _ _ _ => 50000
  | .entryModeSet => 100000
  | .reset => 1520000
  | .clear => 1520000
  | .functionSetRaw => 4100000
  | .writeStr _ => 100000
  | .new _ => 100000
  | .drop => 0

/-- The instance drives only the lines it has (R24, R107). -/
def ownLines (n : Nat) (as : List Action) : Bool :=
  as.all (fun a => match a with
    | .drive .rs _ => true
    | .drive .en _ => true
    | .drive (.d i) _ => decide (i < n)
    | .wait _ => true)

end Sys2Proof.Machine
end

