-- ==== Sys2Proof/Certificates/Slice0/Obligations.lean ====
section
/-! DEFINITION. The statements about the HD44780 driver core, for the provers. -/

open Sys2Proof Sys2Proof.Machine

/-! ### Encoding -/

/-- L2-G of spec/95_test_vectors.md, words written out from the layouts of R51, R52 and R55: each decodes to its row,
and the listed never-emitted words are rejected by name (R56). -/
def Obligations.SpecWordsDecode : Prop :=
  decodeBus 0b1_1010_0101 = .ok (.writeChar 0xA5) ∧ decodeBus 0b0_1100_1000 = .ok (.setCursorPos 0x48) ∧
  decodeBus 0b0_0011_1000 = .ok (.functionSet .eightLine) ∧ decodeBus 0b0_0010_1000 = .ok (.functionSet .fourLine) ∧
  decodeBus 0b0_0001_1100 = .ok (.shiftDisplay .right) ∧ decodeBus 0b0_0001_0000 = .ok (.shiftCursor .left) ∧
  decodeBus 0b0_0000_1011 = .ok (.setDisplayMode false true true) ∧ decodeBus 0b0_0000_0110 = .ok .entryModeSet ∧
  decodeBus 0b0_0000_0010 = .ok .reset ∧ decodeBus 0b0_0000_0001 = .ok .clear ∧
  decodeNib 0b0_0010 = .ok .functionSetRaw ∧
  (∀ w ∈ ([0x000, 0x003, 0x004, 0x007, 0x011, 0x030, 0x040, 0x07F] : List BusWord), decodeBus w = .error .notEmitted)

/-- R55: the rows are mutually exclusive, and R56: the words the decoder accepts are exactly those that "values the
block emits" lists. -/
def Obligations.OpcodeRowsExclusive : Prop :=
  ∀ w : BusWord,
    (busRows.filter (fun r => r.fits w)).length ≤ 1 ∧
    ((∃ i, decodeBus w = .ok i) ↔
      0x100 ≤ w.toNat ∨ (0x080 ≤ w.toNat ∧ w.toNat ≤ 0x0FF) ∨ w ∈ ([0x038, 0x028, 0x018, 0x01C, 0x010, 0x014] : List BusWord)
        ∨ (0x008 ≤ w.toNat ∧ w.toNat ≤ 0x00F) ∨ w ∈ ([0x006, 0x002, 0x001] : List BusWord))

/-- The decoder reads from the words of every well-formed operation, in the byte form, exactly what the words stand
for: every operand at every value (a position by its low 7 bits, a string as its characters, the constructor as the five
words of its initialization). -/
def Obligations.EncodedOperationsDecodeBack : Prop :=
  ∀ (m : BusMode) (i : Instr), i.wf = true → decodeWords (encode m i) = some (i.onWire m)

/-- The other direction: a word the decoder accepts is the word of the operation it gives, and that operation is well
formed, so each emitted word has one meaning. -/
def Obligations.DecodedWordIsItsEncoding : Prop :=
  (∀ (m : BusMode) (w : BusWord) (i : Instr), decodeBus w = .ok i → i.wf = true ∧ encode m i = [.bus w]) ∧
  (∀ (w : NibWord) (i : Instr), decodeNib w = .ok i → encode .fourLine i = [.nib w])

/-! ### What each operation does when it is accepted -/

/-- R76: every combination of the three flags is accepted in `Ready` as the command cycle of `0000_1DCB` with settle
delay `T_CMD`; nothing else changes; the 8 combinations give 8 distinct bytes. -/
def Obligations.SetDisplayModeSendsItsByte : Prop :=
  (∀ (s : State) (on cursorVisible blink : Bool), s.phase = .ready → s.pending = [] →
    exec (.setDisplayMode on cursorVisible blink) s = .next
      { s with
        phase := .running .setDisplayMode
        pending := commandCycle s.cfg
          (0b00001#5 ++ BitVec.ofBool on ++ BitVec.ofBool cursorVisible ++ BitVec.ofBool blink) s.cfg.delays.tCmd }) ∧
  (∀ a b c a' b' c' : Bool, displayControlByte a b c = displayControlByte a' b' c' → a = a' ∧ b = b' ∧ c = c') ∧
  displayControlByte true true true = 0b0000_1111 ∧ displayControlByte false false false = 0b0000_1000

/-- R54, R78, R79: the shift commands are accepted in `Ready` as the command cycles of the four literal bytes, with
settle delay `T_CMD`; nothing else changes. -/
def Obligations.ShiftCommandsSendTheirBytes : Prop :=
  ∀ (s : State) (dir : Direction), s.phase = .ready → s.pending = [] →
    exec (.shiftCursor dir) s = .next
      { s with
        phase := .running .shiftCursor
        pending := commandCycle s.cfg (match dir with | .left => 0b0001_0000 | .right => 0b0001_0100) s.cfg.delays.tCmd } ∧
    exec (.shiftDisplay dir) s = .next
      { s with
        phase := .running .shiftDisplay
        pending := commandCycle s.cfg (match dir with | .left => 0b0001_1000 | .right => 0b0001_1100) s.cfg.delays.tCmd }

/-- R77: every 8-bit position is accepted in `Ready` as the command cycle of bit 7 set over the position's low 7 bits,
with settle delay `T_CMD`; two positions with the same low 7 bits (such as `pos` and `pos + 128`) give the same state. -/
def Obligations.SetCursorPosMasksThePosition : Prop :=
  (∀ (s : State) (pos : Byte), s.phase = .ready → s.pending = [] →
    exec (.setCursorPos pos) s = .next
      { s with
        phase := .running .setCursorPos
        pending := commandCycle s.cfg (1#1 ++ pos.extractLsb' 0 7) s.cfg.delays.tCmd }) ∧
  (∀ (s : State) (pos : Byte), exec (.setCursorPos (pos + 128)) s = exec (.setCursorPos pos) s)

/-- R74, R75: return-home and clear are accepted in `Ready` as the command cycles of `0x02` and `0x01`, both with the
long settle delay `T_CLR`; nothing else changes. -/
def Obligations.LongCommandsSendTheirBytes : Prop :=
  ∀ s : State, s.phase = .ready → s.pending = [] →
    exec .reset s = .next
      { s with phase := .running .reset, pending := commandCycle s.cfg 0b0000_0010 s.cfg.delays.tClr } ∧
    exec .clear s = .next
      { s with phase := .running .clear, pending := commandCycle s.cfg 0b0000_0001 s.cfg.delays.tClr }

/-- R66, R69, R80, R81: `function_set` of the instance's own mode completes where initialization is about to begin step 4,
and `entry_mode_set` where it is about to begin step 7, the last one: the command cycle of `0x38` or `0x28`, and of `0x06`,
each with `T_INIT`, is performed, and what follows that step is pending. It is what as many steps of the machine come to
while nothing cuts in, and every construction gets to both. On an idle block both are refused: only initialization emits
them. That such a step as an operation of its own is one step of `exec`, and which refusal it is, is the model's choice
(log 4); the bytes are the spec's own from general knowledge (D8, D9). -/
def Obligations.InitializationCommandsSendTheirWords : Prop :=
  (∀ s : State, s.phase = .constructing → s.lines.data.length = s.cfg.mode.lineCount →
    (s.pending = ((initSteps s.cfg).drop 4).flatten →
      exec (.functionSet s.cfg.mode) s = .next
        { s with
          lines := ⟨.low, .low, s.cfg.mode.pick [.low, .low, .low, .high, .high, .high, .low, .low]
            [.low, .low, .low, .high]⟩
          trace := s.trace ++ commandCycle s.cfg (s.cfg.mode.pick 0x38 0x28) s.cfg.delays.tInit
          pending := ((initSteps s.cfg).drop 5).flatten } ∧
      (s.undisturbed → steps (s.cfg.mode.pick 14 18) s = exec (.functionSet s.cfg.mode) s)) ∧
    (s.pending = ((initSteps s.cfg).drop 7).flatten →
      exec .entryModeSet s = .next
        { s with
          lines := ⟨.low, .low, s.cfg.mode.pick [.low, .high, .high, .low, .low, .low, .low, .low]
            [.low, .high, .high, .low]⟩
          trace := s.trace ++ commandCycle s.cfg 0x06 s.cfg.delays.tInit
          pending := [] } ∧
      (s.undisturbed → steps (s.cfg.mode.pick 14 18) s = exec .entryModeSet s))) ∧
  (∀ (s : State) (cfg : Config), cfg.wf = true → s.undisturbed →
    ∃ t u v, exec (.new cfg) s = .next t ∧
      steps (cfg.mode.pick 16 12) t = .next u ∧ u.phase = .constructing ∧ u.cfg = cfg ∧
      u.pending = ((initSteps cfg).drop 4).flatten ∧ u.lines.data.length = cfg.mode.lineCount ∧
      steps (cfg.mode.pick 58 66) t = .next v ∧ v.phase = .constructing ∧ v.cfg = cfg ∧
      v.pending = ((initSteps cfg).drop 7).flatten ∧ v.lines.data.length = cfg.mode.lineCount) ∧
  (∀ s : State, s.phase = .ready → s.pending = [] →
    (∀ width, exec (.functionSet width) s = .refused .notEmitted) ∧ exec .entryModeSet s = .refused .notEmitted)

/-- R64: the raw write completes where initialization is about to begin step 2 (it has been through steps 0 and 1, so RS
is `Low`; all from step 2 on is pending): the data lines are driven with `0x38` or with the nibble `0x2` and EN is pulsed,
with no RS drive, and step 3's wait `T_FS1` is pending next (R65, R115). It is what as many steps of the machine come to
while nothing cuts in, and every construction gets there after the three actions of steps 0 and 1. On an idle block it is
refused: the block emits no raw write, which in `FourLine` is a lone nibble, anywhere else (R41, R119). That step 2 as an
operation of its own is one step of `exec` is the model's choice (log 4); the values are the spec's own (D7). -/
def Obligations.FunctionSetRawIsStepTwo : Prop :=
  (∀ s : State, s.phase = .constructing → s.pending = ((initSteps s.cfg).drop 2).flatten →
    s.lines.rs = .low → s.lines.data.length = s.cfg.mode.lineCount →
    exec .functionSetRaw s = .next
      { s with
        lines := ⟨.low, .low, s.cfg.mode.pick [.low, .low, .low, .high, .high, .high, .low, .low] [.low, .high, .low, .low]⟩
        trace := s.trace ++ s.cfg.mode.pick (driveByte 0x38) (driveNibble 0x2)
          ++ [.drive .en true, .wait s.cfg.delays.tPw, .drive .en false, .wait s.cfg.delays.tPl]
        pending := .wait s.cfg.delays.tFs1 :: ((initSteps s.cfg).drop 4).flatten } ∧
    (s.undisturbed → steps (s.cfg.mode.pick 12 8) s = exec .functionSetRaw s)) ∧
  (∀ (s : State) (cfg : Config), cfg.wf = true → s.undisturbed →
    ∃ t u, exec (.new cfg) s = .next t ∧ steps 3 t = .next u ∧ u.phase = .constructing ∧ u.cfg = cfg ∧
      u.pending = ((initSteps cfg).drop 2).flatten ∧ u.lines.rs = .low ∧ u.lines.data.length = cfg.mode.lineCount) ∧
  (∀ s : State, s.phase = .ready → s.pending = [] → exec .functionSetRaw s = .refused .notEmitted)

/-- R16, R56 and U9: a function-set with the width bit of the other mode is a word the block never emits. In no state does
it do anything: an idle block gives it no meaning (log 10), and where it answers a next state, that is a refusal (log 9). -/
def Obligations.FunctionSetOfOtherModeRefused : Prop :=
  ∀ (s : State) (width : BusMode), width ≠ s.cfg.mode →
    (s.phase = .ready → s.pending = [] → exec (.functionSet width) s = .refused .notEmitted) ∧
    (¬ (s.phase = .ready ∧ s.pending = []) →
      ∃ r, exec (.functionSet width) s = .next { s with refusals := s.refusals ++ [r] })

/-- R82, R86: a character code that fits in 8 bits is accepted in `Ready` as its data cycle: RS high, the byte, RS low,
then the wait `T_DATA`; nothing else changes. -/
def Obligations.WriteCharSendsItsCode : Prop :=
  ∀ (s : State) (c : Byte), s.phase = .ready → s.pending = [] →
    exec (.writeChar c.toNat) s = .next
      { s with
        phase := .running .writeChar
        pending := .drive .rs true :: (transfer s.cfg.mode s.cfg.delays c
          ++ [.drive .rs false, .wait s.cfg.delays.tData]) }

/-- R83: a string of 8-bit codes is accepted in `Ready` as the data cycles of its characters in order, none for the
empty string. -/
def Obligations.WriteStrSendsItsCodesInOrder : Prop :=
  ∀ (s : State) (cs : List Byte), s.phase = .ready → s.pending = [] →
    exec (.writeStr (cs.map BitVec.toNat)) s = .next
      { s with phase := .running .writeStr, pending := cs.flatMap (dataCycle s.cfg) }

/-- R59, R32, R112: in any state, the constructor with a well-formed configuration makes the state at construction
entry. What was there before does not carry over (but for the run's refusal mark, R99, and the callers' inputs: log 7). -/
def Obligations.NewMakesTheConstructionEntryState : Prop :=
  ∀ (s : State) (cfg : Config), cfg.wf = true →
    exec (.new cfg) s = .next
      { cfg := cfg
        lines := ⟨.unknown, .unknown, List.replicate cfg.mode.lineCount .unknown⟩
        phase := .constructing
        pending := initSeq cfg
        trace := []
        refusals := s.refusals
        inputs := s.inputs }

/-- R111: `drop` is accepted in `Ready`, emits no event, leaves the lines as they are and sets the phase to `Dropped`. -/
def Obligations.DropEndsTheInstance : Prop :=
  ∀ s : State, s.phase = .ready → s.pending = [] → exec .drop s = .next { s with phase := .dropped }

/-- The command cycle of R85, the transfers of R87 and R88 and the pulse of R89, event by event. The order of the
drives, the trailing `Wait(T_PL)` and the map of nibble bits to lines are the spec's own decisions (D3, D4, D5, D14). -/
def Obligations.CommandCycleEvents : Prop :=
  (∀ (cfg : Config) (b : Byte) (t : Nat), cfg.mode = .eightLine →
    commandCycle cfg b t = [Action.drive .rs false] ++ (List.range 8).map (fun k => Action.drive (.d k) (b.getLsbD k))
      ++ [.drive .en true, .wait cfg.delays.tPw, .drive .en false, .wait cfg.delays.tPl] ++ [.wait t]) ∧
  (∀ (cfg : Config) (b : Byte) (t : Nat), cfg.mode = .fourLine →
    commandCycle cfg b t = [Action.drive .rs false]
      ++ (List.range 4).map (fun k => Action.drive (.d k) (b.getLsbD (4 + k)))
      ++ [.drive .en true, .wait cfg.delays.tPw, .drive .en false, .wait cfg.delays.tPl]
      ++ (List.range 4).map (fun k => Action.drive (.d k) (b.getLsbD k))
      ++ [.drive .en true, .wait cfg.delays.tPw, .drive .en false, .wait cfg.delays.tPl] ++ [.wait t])

/-- R38: in `EightLine` a byte is one cycle, in which bit i of the byte drives data line i. -/
def Obligations.EightLineByteIsOneCycle : Prop :=
  ∀ (T : DelayTable) (b : Byte) (L : Lines), L.data.length = 8 →
    ((transfer .eightLine T b).filter (fun a => a = .drive .en true)).length = 1 ∧
    (∀ k, k < 8 → (applyAll L (transfer .eightLine T b)).level (.d k) = lvl (b.getLsbD k) ∧
      (Action.drive (.d k) (b.getLsbD k)) ∈ transfer .eightLine T b)

/-- R39, R88: in `FourLine` a byte is two cycles, the high nibble first, each nibble read off the lines as a number;
RS keeps its level. That line j carries nibble bit j is the spec's own decision (D3). -/
def Obligations.FourLineByteIsTwoCyclesHighFirst : Prop :=
  ∀ (T : DelayTable) (b : Byte) (L : Lines), L.data.length = 4 → L.rs ≠ .unknown →
    latchLogFrom L (transfer .fourLine T b) =
      [.word (L.rs == .high) (b.toNat / 16), .word (L.rs == .high) (b.toNat % 16)] ∧
    (applyAll L (transfer .fourLine T b)).rs = L.rs ∧
    (∀ j, j < 4 → (applyAll L (transfer .fourLine T b)).level (.d j) = lvl (b.getLsbD j))

/-- R61 to R69: the initialization sequence, step by step. Its bytes in steps 2, 4 and 7 and its step 0 are the spec's
own decisions (D6 to D9). -/
def Obligations.InitSequenceSteps : Prop :=
  ∀ cfg : Config,
    initSeq cfg =
      [.drive .rs false, .drive .en false] ++ [.wait cfg.delays.tPor]
        ++ (cfg.mode.pick (driveByte 0x38) (driveNibble 0b0010))
        ++ [.drive .en true, .wait cfg.delays.tPw, .drive .en false, .wait cfg.delays.tPl]
        ++ [.wait cfg.delays.tFs1]
        ++ commandCycle cfg (cfg.mode.pick 0x38 0x28) cfg.delays.tInit
        ++ commandCycle cfg (0b000011#6 ++ BitVec.ofBool cfg.initCursor ++ BitVec.ofBool cfg.initBlink) cfg.delays.tInit
        ++ commandCycle cfg 0x01 cfg.delays.tClr
        ++ commandCycle cfg 0x06 cfg.delays.tInit

/-- R63, R65: step 1 is the wait `T_POR` and step 3 the wait `T_FS1`; a legal configuration makes them at least 15 ms
and 4.1 ms. -/
def Obligations.PowerOnAndFunctionSetWaits : Prop :=
  ∀ cfg : Config,
    (initSteps cfg)[1]? = some [.wait cfg.delays.tPor] ∧ (initSteps cfg)[3]? = some [.wait cfg.delays.tFs1] ∧
    (cfg.wf = true → 15000000 ≤ cfg.delays.tPor ∧ 4100000 ≤ cfg.delays.tFs1)

/-! ### Refusals -/

/-- R98, R99: while the block is constructing or running, every operation but the constructor is refused with
`NotReady`, and after `drop` with `Dropped`, whatever its operands; the mark is all that changes. `Ready` with actions
pending, which no instance is ever in, counts as not ready (the model's choice, log 5). That the run goes on with the mark
is log 9. An operation that only initialization emits, where initialization is about to begin the step that emits it, is no
caller's call but that step itself (log 4): see FunctionSetRawIsStepTwo and InitializationCommandsSendTheirWords. -/
def Obligations.BusyAndDroppedRefuseEveryCall : Prop :=
  ∀ (s : State) (i : Instr), (∀ cfg, i ≠ .new cfg) →
    (s.phase = .constructing →
      (∀ k, emittingStep i = some k → s.pending = ((initSteps s.cfg).drop k).flatten →
        ∃ width, i = .functionSet width ∧ width ≠ s.cfg.mode) →
      exec i s = .next { s with refusals := s.refusals ++ [.notReady] }) ∧
    ((∃ op, s.phase = .running op) → exec i s = .next { s with refusals := s.refusals ++ [.notReady] }) ∧
    (s.phase = .ready → s.pending ≠ [] → exec i s = .next { s with refusals := s.refusals ++ [.notReady] }) ∧
    (s.phase = .dropped → exec i s = .next { s with refusals := s.refusals ++ [.dropped] })

/-- R82, R83, R99: in `Ready`, a character code above `0xFF` is refused with `CodeTooWide`, alone or anywhere in a
string, before any event. That the refusal is a next state with the mark extended, after which the run goes on, is the
model's reading (log 9). -/
def Obligations.WideCodeRefused : Prop :=
  ∀ s : State, s.phase = .ready → s.pending = [] →
    (∀ c : Nat, 0xFF < c → exec (.writeChar c) s = .next { s with refusals := s.refusals ++ [.codeTooWide] }) ∧
    (∀ cs : List Nat, (∃ c ∈ cs, 0xFF < c) →
      exec (.writeStr cs) s = .next { s with refusals := s.refusals ++ [.codeTooWide] })

/-- R19, R99: the constructor refuses a configuration whose line count is not its mode's, or with a delay below its
lower bound or above 255 ms; no event, and no instance is built. That the refusal is a next state with the mark extended,
after which the run goes on, is the model's reading (log 9). -/
def Obligations.IllFormedConfigurationRefused : Prop :=
  ∀ (s : State) (cfg : Config),
    (cfg.lineCount ≠ cfg.mode.lineCount ∨
      ∃ f ∈ ([DelayTable.tPor, DelayTable.tFs1, DelayTable.tInit, DelayTable.tClr, DelayTable.tCmd, DelayTable.tData,
          DelayTable.tPw, DelayTable.tPl] : List (DelayTable → Nat)),
        f cfg.delays < f .lowerBounds ∨ 255000000 < f cfg.delays) →
    exec (.new cfg) s = .next { s with refusals := s.refusals ++ [.configIllFormed] }

/-- The frame of a call: whatever an operation other than the constructor answers, it leaves the configuration and the
inputs as they were, and it either leaves the mark or adds one refusal and changes nothing else. It leaves every line and
the trace as they were, but for an operation that only initialization emits, at its own step (log 4), which performs that
step's actions, pending first, and then no more than these and the latches they drive has changed: not the phase. So an
accepted call changes only `phase` and `pending`. -/
def Obligations.CallFrame : Prop :=
  ∀ (s t : State) (i : Instr), (∀ cfg, i ≠ .new cfg) → exec i s = .next t →
    t.cfg = s.cfg ∧ t.inputs = s.inputs ∧
    ((t.lines = s.lines ∧ t.trace = s.trace) ∨
      (t.phase = s.phase ∧ t.refusals = s.refusals ∧ ∃ k done, emittingStep i = some k ∧
        (initSteps s.cfg)[k]? = some done ∧ s.pending = done ++ t.pending ∧ t.trace = s.trace ++ done ∧
        t.lines = applyAll s.lines done)) ∧
    (t.refusals = s.refusals ∨ ∃ r, t = { s with refusals := s.refusals ++ [r] })

/-! ### The step -/

/-- A step runs the called operation: the owner's next call once the block is idle, an overlapping call at once, and
the instruction of a fetch word at the very next step. What the fetch does to the state is the model's choice (log 8): it
completes what is in progress, and for an operation that only initialization emits it brings a new instance to the step that
emits it, of the same configuration or, for `function_set`, of the mode its width bit names. -/
def Obligations.StepRunsTheCalledOperation : Prop :=
  (∀ (s : State) (i : Instr) (rest : List Input), s.inputs = .call i :: rest → s.pending = [] →
    s.phase = .ready ∨ s.phase = .dropped → step s = exec i { s with inputs := rest }) ∧
  (∀ (s : State) (i : Instr) (rest : List Input), s.inputs = .overlap i :: rest →
    step s = exec i { s with inputs := rest }) ∧
  (∀ (s : State) (nbits w : Nat) (i : Instr), decodeTableWord nbits w = some i →
    step (s.withFetchWord nbits w) = exec i (s.stage i) ∧
    (emittingStep i = none → s.stage i = s.settle) ∧
    (∀ k, emittingStep i = some k →
      (s.stage i).cfg = (match i with | .functionSet width => withMode s.cfg width | _ => s.cfg) ∧
      (s.stage i).phase = .constructing ∧ (s.stage i).pending = ((initSteps (s.stage i).cfg).drop k).flatten ∧
      (s.stage i).trace = ((initSteps (s.stage i).cfg).take k).flatten ∧
      (s.stage i).lines = applyAll (Lines.unknown (s.stage i).cfg.lineCount) (s.stage i).trace))

/-- R27: with actions pending and no call that cuts in, the step removes the head of `pending`, performs it on the lines
and appends it to the trace. Its premises on a `Drive` (the line exists; the bus is known when EN rises) hold in every
state of an instance: see InvariantRulesOutFaults. -/
def Obligations.StepPerformsTheNextAction : Prop :=
  ∀ (s : State) (a : Action) (rest : List Action), s.pending = a :: rest →
    (∀ i left, s.inputs ≠ .overlap i :: left) →
    (∀ l b, a = .drive l b → s.lines.has l = true ∧ (l = .en → b = true → s.lines.known = true)) →
    ∃ t, step s = .next t ∧ t.pending = rest ∧ t.trace = s.trace ++ [a] ∧ t.cfg = s.cfg ∧ t.phase = s.phase ∧
      t.refusals = s.refusals ∧ t.inputs = (match s.inputs with | .pass :: left => left | other => other) ∧
      (∀ n, a = .wait n → t.lines = s.lines) ∧
      (∀ l b, a = .drive l b → t.lines.level l = lvl b ∧ t.lines.data.length = s.lines.data.length ∧
        ∀ l', l' ≠ l → t.lines.level l' = s.lines.level l')

/-- R25, R27: with nothing pending and no call that cuts in, `Constructing` and `Running` become `Ready`, and the owner's
next call, if there is one, is kept for the step after; in `Ready` and `Dropped` with no call to make there is no step, and
the state stays as it is (log 6). A `pass` is used up (log 3). -/
def Obligations.StepEndsTheOperation : Prop :=
  ∀ s : State, s.pending = [] → (∀ i left, s.inputs ≠ .overlap i :: left) →
    (s.phase = .constructing ∨ (∃ op, s.phase = .running op) →
      step s = .next { s with
        phase := .ready
        inputs := match s.inputs with | .pass :: left => left | other => other }) ∧
    (s.phase = .ready ∨ s.phase = .dropped → (∀ i left, s.inputs ≠ .call i :: left) →
      step s = .next { s with inputs := match s.inputs with | .pass :: left => left | other => other })

/-- R28: no step removes or reorders an event. Unless it runs the constructor, a step leaves the trace or appends the
head of `pending` to it; one that runs an operation that only initialization emits, at the step of initialization that
emits it, appends all of that step's actions, which are the first ones pending (log 4). -/
def Obligations.TraceIsAppendOnly : Prop :=
  ∀ s t : State, step s = .next t →
    (∃ cfg s', s.turn = .run (.new cfg) s' ∧ (t.trace = [] ∨ t.trace = s.trace)) ∨ t.trace = s.trace ∨
      ∃ done, s.pending = done ++ t.pending ∧ t.trace = s.trace ++ done ∧
        (done.length = 1 ∨
          ∃ i s' k, s.turn = .run i s' ∧ emittingStep i = some k ∧ (initSteps s.cfg)[k]? = some done)

/-- R16 to R18: no step but a constructor's changes the configuration, and R111: none but a constructor's leaves
`Dropped` or changes a line or the trace there. -/
def Obligations.ConfigurationAndDroppedAreFinal : Prop :=
  ∀ s t : State, step s = .next t → (∀ cfg s', s.turn ≠ .run (.new cfg) s') →
    t.cfg = s.cfg ∧ (s.phase = .dropped → s.pending = [] → t.phase = .dropped ∧ t.lines = s.lines ∧ t.trace = s.trace)

/-! ### The invariant -/

/-- R32, R112: the reset state is the state at construction entry: every line `Unknown`, phase `Constructing`, the
initialization sequence pending, an empty trace. The configuration it has is the model's choice (log 1). -/
def Obligations.ResetIsConstructionEntry : Prop :=
  State.reset.phase = .constructing ∧ State.reset.trace = [] ∧ State.reset.refusals = [] ∧
  State.reset.pending = initSeq State.reset.cfg ∧
  State.reset.lines = Lines.unknown State.reset.cfg.mode.lineCount ∧ State.reset.cfg.wf = true

/-- The invariant holds at reset, for API callers too. -/
def Obligations.ResetHasTheInvariant : Prop := State.reset.Inv ∧ State.reset.ApiInv

/-- Every step keeps the invariant: legal configuration, latches that replay the trace, nothing pending when idle, and a
history of whole operations of the API in program order, so that after initialization no operation is one that only
initialization emits, whatever the callers do (R19, R26 to R28, R43, R45, R58, R72, R80, R81). -/
def Obligations.EveryStepKeepsTheInvariant : Prop :=
  ∀ s t : State, s.Inv → step s = .next t → t.Inv

/-- Every step of an instance whose callers use the API keeps the stronger invariant: the inputs still to come are API calls
too (R58). -/
def Obligations.EveryStepKeepsTheApiInvariant : Prop :=
  ∀ s t : State, s.ApiInv → step s = .next t → t.ApiInv

/-- R96: in a state of an instance no step faults. That with API callers every step answers a next state rests on the
model's own readings: where R27 has no step the state stays as it is (log 6), and a refused call is a next state with the
mark extended (log 9). -/
def Obligations.InvariantRulesOutFaults : Prop :=
  (∀ s : State, s.Inv → ∀ f, step s ≠ .fault f) ∧ (∀ s : State, s.ApiInv → ∃ t, step s = .next t)

/-- R21, R22, R23: in `Ready` and in `Dropped`, RS and EN are `Low`, there are `N` data lines, and none of them is
`Unknown`. -/
def Obligations.IdleLinesAreDriven : Prop :=
  ∀ s : State, s.Inv → s.phase = .ready ∨ s.phase = .dropped →
    s.lines.rs = .low ∧ s.lines.en = .low ∧ s.lines.data.length = s.cfg.mode.lineCount ∧
    ∀ v ∈ s.lines.data, v ≠ .unknown

/-- R90: no `Drive` of RS or of a data line falls while EN is `High`, in anything an instance has done or has pending. -/
def Obligations.BusIsStableDuringEveryPulse : Prop :=
  ∀ s : State, s.Inv → busStable false (s.trace ++ s.pending) = true

/-- R22, R89: every enable pulse of an instance is whole, with `T_PW` high and `T_PL` low after it, and EN is driven
`High` nowhere else. -/
def Obligations.EveryPulseIsWhole : Prop :=
  ∀ s : State, s.Inv → pulsesWhole s.cfg.delays (s.trace ++ s.pending) = true

/-- R24, R107: an instance drives only the `N + 2` lines it has. -/
def Obligations.InstanceDrivesOnlyItsLines : Prop :=
  ∀ s : State, s.Inv → ownLines s.cfg.mode.lineCount (s.trace ++ s.pending) = true

/-- R91: no latch-log entry of an instance is `Undefined`. -/
def Obligations.LatchLogHasNoUndefinedEntry : Prop :=
  ∀ s : State, s.Inv → LatchEntry.undefined ∉ s.latchLog

/-- R61: while an instance is constructing and has actions pending, the initialization FSM is in one of `I0` to `I7`: all
earlier steps have been performed, some events of that step are still pending, and so are all later steps. No step is
skipped or reordered. -/
def Obligations.InitializationStepsInOrder : Prop :=
  ∀ s : State, s.Inv → s.phase = .constructing → s.pending ≠ [] →
    ∃ k step done rest, s.initState = some k ∧ k ≤ 7 ∧ (initSteps s.cfg)[k]? = some step ∧ step = done ++ rest ∧
      rest ≠ [] ∧ s.trace = ((initSteps s.cfg).take k).flatten ++ done ∧
      s.pending = rest ++ ((initSteps s.cfg).drop (k + 1)).flatten

/-! ### Whole operations -/

/-- The sequencer completes whatever is pending: in a state of an instance where nothing cuts in, as many steps as there
are actions and one more reach `State.settle`, where the phase is `Ready` (R25, R26) and the owner's next call still waits. -/
def Obligations.SequencerCompletesWhatIsPending : Prop :=
  ∀ s : State, s.Inv → s.undisturbed → s.phase = .constructing ∨ (∃ op, s.phase = .running op) →
    steps (s.pending.length + 1) s = .next s.settle ∧ s.settle.phase = .ready ∧
      s.settle.inputs = s.inputs ∧ s.settle.Inv

/-- R32, R70: construction completes. The state after initialization is the column "after initialization" of R32, and
the latch log is the one R70 lists. -/
def Obligations.ConstructionCompletes : Prop :=
  ∀ (s t : State) (cfg : Config), cfg.wf = true → s.undisturbed → exec (.new cfg) s = .next t →
    ∃ u, steps ((cfg.mode.pick 72 84) + 1) t = .next u ∧
      u.phase = .ready ∧ u.pending = [] ∧ u.cfg = cfg ∧ u.trace = initSeq cfg ∧ u.inputs = s.inputs ∧
      u.lines.rs = .low ∧ u.lines.en = .low ∧
      u.lines.data = cfg.mode.pick [.low, .high, .high, .low, .low, .low, .low, .low] [.low, .high, .high, .low] ∧
      u.latchLog = cfg.mode.pick
        [.word false 0x38, .word false 0x38, .word false (0x0C + 2 * cfg.initCursor.toNat + cfg.initBlink.toNat),
          .word false 0x01, .word false 0x06]
        [.word false 0x2, .word false 0x2, .word false 0x8, .word false 0x0,
          .word false (0xC + 2 * cfg.initCursor.toNat + cfg.initBlink.toNat), .word false 0x0, .word false 0x1,
          .word false 0x0, .word false 0x6]

/-- Every operation an idle instance runs completes: it is accepted, the sequencer performs its whole expansion and
nothing else, the block is `Ready` again, and the latch log has gained exactly the entries of the words the encoder
gives the operation, RS included (R34, R43, R50, R57). The operations are those that run on an idle block. The three that
only initialization emits have FunctionSetRawIsStepTwo and InitializationCommandsSendTheirWords, the constructor
NewMakesTheConstructionEntryState and ConstructionCompletes, and `drop` DropEndsTheInstance. -/
def Obligations.OperationCompletesWithItsWords : Prop :=
  ∀ (s : State) (i : Instr), s.Inv → s.phase = .ready → s.undisturbed → runsWhenReady i = true →
    ∃ t u, exec i s = .next t ∧ steps (t.pending.length + 1) t = .next u ∧
      u = { s with lines := u.lines, trace := s.trace ++ expansion s.cfg i } ∧
      u.lines.rs = .low ∧ u.lines.en = .low ∧
      u.latchLog = s.latchLog ++ logOfWords s.cfg.mode (encode s.cfg.mode i)

/-- The latch log of an idle instance, read back into words (R57), is the words of its initialization followed by the
words of the operations it ran, in program order, all of them of the API whatever the callers do (R58, R72); and every one
of those words decodes (R55). -/
def Obligations.LatchLogReadsBackAsTheOperations : Prop :=
  ∀ s : State, s.Inv → s.phase = .ready ∨ s.phase = .dropped →
    ∃ ops : List Instr, (∀ i ∈ ops, runsWhenReady i = true ∧ i.isApi = true) ∧
      s.trace = initSeq s.cfg ++ expansions s.cfg ops ∧
      wordsOfLog s.cfg.mode s.latchLog = some (encode s.cfg.mode (.new s.cfg) ++ ops.flatMap (encode s.cfg.mode)) ∧
      decodeWords (encode s.cfg.mode (.new s.cfg) ++ ops.flatMap (encode s.cfg.mode)) =
        some (Instr.onWire s.cfg.mode (.new s.cfg) ++ ops.flatMap (Instr.onWire s.cfg.mode))

/-- R34: the instruction target gets every word of every command, initialization's included, and only `write_char` and
`write_str` write the data target: RS in each latch-log entry of an operation says which. -/
def Obligations.OnlyDataWritesReachTheDataTarget : Prop :=
  (∀ (s : State) (i : Instr), s.Inv → s.phase = .ready → runsWhenReady i = true →
    ∀ e ∈ latchLogFrom s.lines (expansion s.cfg i),
      ∃ v, e = .word (match i with | .writeChar _ => true | .writeStr _ => true | _ => false) v) ∧
  (∀ cfg : Config, cfg.wf = true → ∀ e ∈ latchLogFrom (Lines.unknown cfg.lineCount) (initSeq cfg), ∃ v, e = .word false v)

/-- R32, L2-B, L2-C: after a command or a character, the data lines of a completed operation hold the byte (in
`EightLine`) or its low nibble (in `FourLine`), the byte being what the operation's word carries. -/
def Obligations.LastByteStaysOnTheLines : Prop :=
  ∀ (s : State) (i : Instr) (w : BusWord), s.Inv → s.phase = .ready → runsWhenReady i = true →
    encode s.cfg.mode i = [.bus w] →
    (applyAll s.lines (expansion s.cfg i)).data =
      (List.range s.cfg.mode.lineCount).map (fun k => lvl (w.getLsbD k))

/-- R58, R72, R81: no word of an API operation other than the constructor is a function-set, a raw function-set or an
entry-mode-set, so the bus width and the entry mode are set at construction only. -/
def Obligations.ApiWordsNeverReinitialize : Prop :=
  ∀ (m : BusMode) (i j : Instr) (w : WireWord), i.isApi = true → (∀ cfg, i ≠ .new cfg) → i.wf = true → w ∈ encode m i →
    decodeWire w = .ok j → j ≠ .entryModeSet ∧ j ≠ .functionSetRaw ∧ ∀ width, j ≠ .functionSet width

/-- R44: what an accepted operation does on the bus depends only on the operation, its arguments and the
configuration: two idle instances with the same configuration, whatever they did before, get the same actions. -/
def Obligations.TrafficIgnoresHistory : Prop :=
  ∀ (s s' t t' : State) (i : Instr), s.cfg = s'.cfg → s.phase = .ready → s'.phase = .ready → s.pending = [] →
    s'.pending = [] → exec i s = .next t → exec i s' = .next t' → t.pending = t'.pending ∧ t.phase = t'.phase

/-- R41, R119: in `FourLine`, whatever its callers do, an instance has no lone nibble but that of step 2: the latch log of
what it has done and has pending is `(0, 0x2)` and then the two nibbles of each of a list of bus words, high nibble first
and under one RS level. When it is idle, that is the latch log itself. -/
def Obligations.NibblesStayPaired : Prop :=
  ∀ s : State, s.Inv → s.cfg.mode = .fourLine →
    (∃ (tail : List LatchEntry) (words : List BusWord),
      latchLogFrom (Lines.unknown s.cfg.lineCount) (s.trace ++ s.pending) = .word false 0x2 :: tail ∧
      tail = words.flatMap (fun w => [.word (w.getLsbD 8) (w.toNat / 16 % 16), .word (w.getLsbD 8) (w.toNat % 16)]) ∧
      pairNibbles tail = some (words.map .bus)) ∧
    (s.phase = .ready ∨ s.phase = .dropped →
      s.latchLog = latchLogFrom (Lines.unknown s.cfg.lineCount) (s.trace ++ s.pending))

/-! ### Time -/

/-- R70, R123: the number of events of each kind of operation. -/
def Obligations.EventCounts : Prop :=
  ∀ cfg : Config,
    (initSeq cfg).length = (cfg.mode.pick 72 84) ∧
    (∀ b t, (commandCycle cfg b t).length = (cfg.mode.pick 14 18)) ∧
    (∀ cs, (expansion cfg (.writeStr cs)).length = cs.length * (cfg.mode.pick 15 19)) ∧
    (∀ c, (expansion cfg (.writeChar c)).length = (cfg.mode.pick 15 19)) ∧
    (expansion cfg .drop).length = 0

/-- R71, R123: the least time of initialization and of each operation, as the sum of its waits, and what the sums come to
with the reference delays, in nanoseconds. -/
def Obligations.LeastTimes : Prop :=
  ∀ cfg : Config, ∀ T, T = cfg.delays →
    minTime (initSeq cfg) = T.tPor + T.tFs1 + 3 * T.tInit + T.tClr
      + (cfg.mode.pick 5 9) * (T.tPw + T.tPl) ∧
    (∀ b t, minTime (commandCycle cfg b t) = t + (cfg.mode.pick 1 2) * (T.tPw + T.tPl)) ∧
    (∀ i ∈ [Instr.clear, Instr.reset], minTime (expansion cfg i) = T.tClr + (cfg.mode.pick 1 2) * (T.tPw + T.tPl)) ∧
    (∀ i : Instr, (∃ on c b, i = .setDisplayMode on c b) ∨ (∃ pos, i = .setCursorPos pos) ∨ (∃ dir, i = .shiftCursor dir) ∨
        (∃ dir, i = .shiftDisplay dir) →
      minTime (expansion cfg i) = T.tCmd + (cfg.mode.pick 1 2) * (T.tPw + T.tPl)) ∧
    (∀ c, minTime (expansion cfg (.writeChar c)) = T.tData + (cfg.mode.pick 1 2) * (T.tPw + T.tPl)) ∧
    minTime (expansion cfg .drop) = 0 ∧
    (∀ cs, minTime (expansion cfg (.writeStr cs)) =
      cs.length * (T.tData + (cfg.mode.pick 1 2) * (T.tPw + T.tPl))) ∧
    (cfg.delays = .reference →
      minTime (initSeq cfg) = (cfg.mode.pick 21410000 21418000) ∧
      minTime (expansion cfg .clear) = (cfg.mode.pick 2002000 2004000) ∧
      minTime (expansion cfg .reset) = (cfg.mode.pick 2002000 2004000) ∧
      (∀ dir, minTime (expansion cfg (.shiftCursor dir)) = (cfg.mode.pick 52000 54000)) ∧
      (∀ c, minTime (expansion cfg (.writeChar c)) = (cfg.mode.pick 102000 104000)))

/-- R93, R94: the actions of a list may take any durations that the waits allow; their sum is at least `minTime`, can be
exactly that, and has no upper bound. That durations are whole nanoseconds is the model's choice (log 18). -/
def Obligations.ElapsedTimeIsALowerBoundOnly : Prop :=
  (∀ (as : List Action) (ts : List Nat), mayTakeAll as ts = true → minTime as ≤ ts.sum) ∧
  (∀ as : List Action, ∃ ts, mayTakeAll as ts = true ∧ ts.sum = minTime as) ∧
  (∀ (as : List Action) (bound : Nat), as ≠ [] → ∃ ts, mayTakeAll as ts = true ∧ bound ≤ ts.sum)

/-- R95: a wait of at most 255 ms is one delay-provider call that asks for at least the wait and for less than one unit
more, in microseconds when they fit in 16 bits and otherwise in milliseconds; a longer one has no call. -/
def Obligations.WaitIsOneSufficientDelayCall : Prop :=
  (∀ t : Nat, t ≤ 255000000 →
    ∃ c, realise t = some c ∧ t ≤ c.requested ∧ ((∃ us, c = .microseconds us) ↔ t ≤ 65535000) ∧
      (∀ us, c = .microseconds us → c.requested < t + 1000) ∧
      (∀ ms, c = .milliseconds ms → c.requested < t + 1000000)) ∧
  (∀ t : Nat, 255000000 < t → realise t = none)

/-- R18, R95, R114: in a legal configuration, every wait of every operation is one of the eight named delays, and each
is realised by exactly one delay-provider call. -/
def Obligations.EveryWaitIsNamedAndRealised : Prop :=
  ∀ (cfg : Config) (i : Instr), cfg.wf = true → (∀ cfg', i = .new cfg' → cfg' = cfg) →
    (∀ t, Action.wait t ∈ expansion cfg i →
      t ∈ [cfg.delays.tPor, cfg.delays.tFs1, cfg.delays.tInit, cfg.delays.tClr, cfg.delays.tCmd, cfg.delays.tData,
        cfg.delays.tPw, cfg.delays.tPl]) ∧
    none ∉ delayCalls (expansion cfg i) ∧
    (delayCalls (expansion cfg i)).length =
      ((expansion cfg i).filter (fun a => match a with | .wait _ => true | .drive _ _ => false)).length

/-- R115, R117: every expansion that sends a byte ends with its settle wait, which a legal configuration makes at least
the bound of R114 for that operation: 1.52 ms for the long commands. The raw write, which runs in initialization only, is
followed by step 3's wait: whenever it has been performed, that wait of at least 4.1 ms is what is pending next. -/
def Obligations.SettleWaitEndsEveryOperation : Prop :=
  (∀ (cfg : Config) (i : Instr), cfg.wf = true → (∀ cfg', i = .new cfg' → cfg' = cfg) → i ≠ .functionSetRaw →
    expansion cfg i ≠ [] → ∃ as t, expansion cfg i = as ++ [.wait t] ∧ settleBound i ≤ t) ∧
  (∀ s t : State, s.cfg.wf = true → exec .functionSetRaw s = .next t → t.trace ≠ s.trace →
    ∃ wait rest, t.pending = .wait wait :: rest ∧ settleBound .functionSetRaw ≤ wait)
end

