-- ==== Sys2Proof/Laws/Encoding.lean ====
section
/-! SUPPORT. The machine's operand assembly gives the bytes of the encoder's layouts, and its configuration check is
`Config.wf` (spec/30_encoding.md R51, R53; spec/10_state.md R19). -/

namespace Sys2Proof.Machine

theorem displayControlByte_layout (on c b : Bool) :
    displayControlByte on c b = 0b00001#5 ++ BitVec.ofBool on ++ BitVec.ofBool c ++ BitVec.ofBool b := by
  revert on c b; decide

theorem cursorPosByte_layout (pos : Byte) : cursorPosByte pos = 1#1 ++ pos.extractLsb' 0 7 := by
  revert pos; decide +kernel

theorem cursorShiftByte_layout (dir : Direction) : cursorShiftByte dir = 0b00010#5 ++ directionBit dir ++ 0b00#2 := by
  cases dir <;> decide

theorem displayShiftByte_layout (dir : Direction) : displayShiftByte dir = 0b00011#5 ++ directionBit dir ++ 0b00#2 := by
  cases dir <;> decide

theorem functionSetByte_layout (m : BusMode) : functionSetByte m = 0b001#3 ++ widthBit m ++ 0b1000#4 := by
  cases m <;> decide

theorem entryModeByte_eq : entryModeByte = 0b0000_0110 := by decide

/-- The machine's configuration check is the syntax's (R19). -/
theorem configAccepted_eq_wf (c : Config) : configAccepted c = c.wf := by
  obtain ⟨m, n, a, b, T⟩ := c
  cases m <;>
    simp [configAccepted, Config.wf, DelayTable.wf, delayAccepted, delayInRange, BusMode.lineCount,
      DelayTable.lowerBounds, longestWait, Bool.and_assoc, Bool.decide_and] <;>
    rfl

theorem wf_lineCount {c : Config} (h : c.wf = true) : c.lineCount = c.mode.lineCount := by
  simp [Config.wf] at h; exact h.1

/-- Every delay of a legal configuration is in its range (R19). -/
theorem wf_delays {c : Config} (h : c.wf = true) :
    (15000000 ≤ c.delays.tPor ∧ c.delays.tPor ≤ 255000000) ∧ (4100000 ≤ c.delays.tFs1 ∧ c.delays.tFs1 ≤ 255000000) ∧
    (100000 ≤ c.delays.tInit ∧ c.delays.tInit ≤ 255000000) ∧ (1520000 ≤ c.delays.tClr ∧ c.delays.tClr ≤ 255000000) ∧
    (50000 ≤ c.delays.tCmd ∧ c.delays.tCmd ≤ 255000000) ∧ (100000 ≤ c.delays.tData ∧ c.delays.tData ≤ 255000000) ∧
    (450 ≤ c.delays.tPw ∧ c.delays.tPw ≤ 255000000) ∧ (550 ≤ c.delays.tPl ∧ c.delays.tPl ≤ 255000000) := by
  simp only [Config.wf, DelayTable.wf, delayInRange, Bool.and_eq_true, decide_eq_true_eq] at h
  simp only [DelayTable.lowerBounds, longestWait] at h
  tauto

/-- No code of the list is too wide exactly when all of them fit (R52, R99). -/
theorem codesRefusal_none (cs : List Nat) : codesRefusal cs = none ↔ cs.all codeFits = true := by
  simp [codesRefusal, codeTooWide, codeFits]

end Sys2Proof.Machine
end

