-- ==== Sys2Proof/Laws/Lines.lean ====
section
/-! SUPPORT. The latches under lists of actions, and the functions of a list of events over `++`. -/

namespace Sys2Proof.Machine

@[simp] theorem applyAll_nil (L : Lines) : applyAll L [] = L := rfl

@[simp] theorem applyAll_cons (L : Lines) (a : Action) (as : List Action) :
    applyAll L (a :: as) = applyAll (a.apply L) as := rfl

theorem applyAll_append (L : Lines) (as bs : List Action) : applyAll L (as ++ bs) = applyAll (applyAll L as) bs := by
  induction as generalizing L with
  | nil => rfl
  | cons a as ih => exact ih _

/-- No action changes how many data lines there are. -/
theorem Action.apply_length (a : Action) (L : Lines) : (a.apply L).data.length = L.data.length := by
  cases a with
  | wait t => rfl
  | drive l b => cases l <;> simp [Action.apply, Lines.set]

theorem applyAll_length (L : Lines) (as : List Action) : (applyAll L as).data.length = L.data.length := by
  induction as generalizing L with
  | nil => rfl
  | cons a as ih => exact (ih _).trans (a.apply_length L)

theorem Action.apply_wait (t : Nat) (L : Lines) : (Action.wait t).apply L = L := rfl

/-- A drive sets its own line (R27). -/
theorem Lines.level_set_self (L : Lines) (l : Line) (v : Level) (h : L.has l = true) : (L.set l v).level l = v := by
  cases l with
  | rs => rfl
  | en => rfl
  | d i => simp [Lines.has] at h; simp [Lines.set, Lines.level, List.getD, h]

/-- A drive leaves every other line alone (R24, R27). -/
theorem Lines.level_set_other (L : Lines) (l l' : Line) (v : Level) (h : l' ≠ l) :
    (L.set l v).level l' = L.level l' := by
  cases l <;> cases l' <;> simp [Lines.set, Lines.level, List.getD] at h ⊢
  rw [List.getElem?_set_ne (Ne.symm h)]

theorem latchLogFrom_append (L : Lines) (as bs : List Action) :
    latchLogFrom L (as ++ bs) = latchLogFrom L as ++ latchLogFrom (applyAll L as) bs := by
  induction as generalizing L with
  | nil => rfl
  | cons a as ih =>
    cases a with
    | wait t => exact ih _
    | drive l b =>
      cases l with
      | rs => exact ih _
      | d i => exact ih _
      | en => cases b with
        | false => exact ih _
        | true => simp only [List.cons_append, latchLogFrom, ih]; rfl

theorem logOfWords_append (m : BusMode) (ws vs : List WireWord) :
    logOfWords m (ws ++ vs) = logOfWords m ws ++ logOfWords m vs := by
  induction ws with
  | nil => rfl
  | cons w ws ih => simp [logOfWords, ih]

theorem minTime_append (as bs : List Action) : minTime (as ++ bs) = minTime as + minTime bs := by
  induction as with
  | nil => simp [minTime]
  | cons a as ih => cases a <;> simp [minTime, ih, Nat.add_assoc]

/-- The actions can be performed in order from these latches: none meets a fault. -/
def performable (L : Lines) : List Action → Bool
  | [] => true
  | a :: as => (a.fault L).isNone && performable (a.apply L) as

theorem performable_append (L : Lines) (as bs : List Action) :
    performable L (as ++ bs) = (performable L as && performable (applyAll L as) bs) := by
  induction as generalizing L with
  | nil => simp [performable]
  | cons a as ih => simp [performable, ih, Bool.and_assoc]

/-- The latches of an idle instance: RS and EN low, `n` data lines, each of them driven (R21 to R23). -/
structure Lines.Driven (n : Nat) (L : Lines) : Prop where
  rsLow : L.rs = .low
  enLow : L.en = .low
  count : L.data.length = n
  allKnown : ∀ v ∈ L.data, v ≠ .unknown

theorem lvl_ne_unknown (b : Bool) : lvl b ≠ .unknown := by cases b <;> decide

@[simp] theorem lvl_bne_unknown (b : Bool) : (lvl b != .unknown) = true := by cases b <;> rfl

@[simp] theorem lvl_false : lvl false = .low := rfl

@[simp] theorem lvl_true : lvl true = .high := rfl

/-- A list of eight levels, one by one. -/
theorem eight_levels (d : List Level) (h : d.length = 8) : ∃ a b c e f g i j, d = [a, b, c, e, f, g, i, j] := by
  match d, h with
  | [a, b, c, e, f, g, i, j], _ => exact ⟨a, b, c, e, f, g, i, j, rfl⟩

/-- A list of four levels, one by one. -/
theorem four_levels (d : List Level) (h : d.length = 4) : ∃ a b c e, d = [a, b, c, e] := by
  match d, h with
  | [a, b, c, e], _ => exact ⟨a, b, c, e, rfl⟩

end Sys2Proof.Machine
end

