-- ==== Sys2Proof/Laws/State.lean ====
section
/-! SUPPORT. One lemma per field per update of the state, each true by definition. -/

namespace Sys2Proof.Machine

variable (s : State)

@[simp] theorem State.markRefused_cfg (r : RefuseReason) : (s.markRefused r).cfg = s.cfg := rfl
@[simp] theorem State.markRefused_lines (r : RefuseReason) : (s.markRefused r).lines = s.lines := rfl
@[simp] theorem State.markRefused_phase (r : RefuseReason) : (s.markRefused r).phase = s.phase := rfl
@[simp] theorem State.markRefused_pending (r : RefuseReason) : (s.markRefused r).pending = s.pending := rfl
@[simp] theorem State.markRefused_trace (r : RefuseReason) : (s.markRefused r).trace = s.trace := rfl
@[simp] theorem State.markRefused_refusals (r : RefuseReason) : (s.markRefused r).refusals = s.refusals ++ [r] := rfl
@[simp] theorem State.markRefused_inputs (r : RefuseReason) : (s.markRefused r).inputs = s.inputs := rfl

@[simp] theorem State.begin_cfg (op : OpName) (as : List Action) : (s.begin op as).cfg = s.cfg := rfl
@[simp] theorem State.begin_lines (op : OpName) (as : List Action) : (s.begin op as).lines = s.lines := rfl
@[simp] theorem State.begin_phase (op : OpName) (as : List Action) : (s.begin op as).phase = .running op := rfl
@[simp] theorem State.begin_pending (op : OpName) (as : List Action) : (s.begin op as).pending = as := rfl
@[simp] theorem State.begin_trace (op : OpName) (as : List Action) : (s.begin op as).trace = s.trace := rfl
@[simp] theorem State.begin_refusals (op : OpName) (as : List Action) : (s.begin op as).refusals = s.refusals := rfl
@[simp] theorem State.begin_inputs (op : OpName) (as : List Action) : (s.begin op as).inputs = s.inputs := rfl

@[simp] theorem State.becomeReady_cfg : (s.becomeReady).cfg = s.cfg := rfl
@[simp] theorem State.becomeReady_lines : (s.becomeReady).lines = s.lines := rfl
@[simp] theorem State.becomeReady_phase : (s.becomeReady).phase = .ready := rfl
@[simp] theorem State.becomeReady_pending : (s.becomeReady).pending = s.pending := rfl
@[simp] theorem State.becomeReady_trace : (s.becomeReady).trace = s.trace := rfl
@[simp] theorem State.becomeReady_refusals : (s.becomeReady).refusals = s.refusals := rfl
@[simp] theorem State.becomeReady_inputs : (s.becomeReady).inputs = s.inputs := rfl

@[simp] theorem State.becomeDropped_cfg : (s.becomeDropped).cfg = s.cfg := rfl
@[simp] theorem State.becomeDropped_lines : (s.becomeDropped).lines = s.lines := rfl
@[simp] theorem State.becomeDropped_phase : (s.becomeDropped).phase = .dropped := rfl
@[simp] theorem State.becomeDropped_pending : (s.becomeDropped).pending = s.pending := rfl
@[simp] theorem State.becomeDropped_trace : (s.becomeDropped).trace = s.trace := rfl
@[simp] theorem State.becomeDropped_refusals : (s.becomeDropped).refusals = s.refusals := rfl
@[simp] theorem State.becomeDropped_inputs : (s.becomeDropped).inputs = s.inputs := rfl

@[simp] theorem State.emit_cfg (a : Action) (rest : List Action) : (s.emit a rest).cfg = s.cfg := rfl
@[simp] theorem State.emit_lines (a : Action) (rest : List Action) : (s.emit a rest).lines = a.apply s.lines := rfl
@[simp] theorem State.emit_phase (a : Action) (rest : List Action) : (s.emit a rest).phase = s.phase := rfl
@[simp] theorem State.emit_pending (a : Action) (rest : List Action) : (s.emit a rest).pending = rest := rfl
@[simp] theorem State.emit_trace (a : Action) (rest : List Action) : (s.emit a rest).trace = s.trace ++ [a] := rfl
@[simp] theorem State.emit_refusals (a : Action) (rest : List Action) : (s.emit a rest).refusals = s.refusals := rfl
@[simp] theorem State.emit_inputs (a : Action) (rest : List Action) : (s.emit a rest).inputs = s.inputs := rfl

@[simp] theorem State.perform_cfg (as rest : List Action) : (s.perform as rest).cfg = s.cfg := rfl
@[simp] theorem State.perform_lines (as rest : List Action) : (s.perform as rest).lines = applyAll s.lines as := rfl
@[simp] theorem State.perform_phase (as rest : List Action) : (s.perform as rest).phase = s.phase := rfl
@[simp] theorem State.perform_pending (as rest : List Action) : (s.perform as rest).pending = rest := rfl
@[simp] theorem State.perform_trace (as rest : List Action) : (s.perform as rest).trace = s.trace ++ as := rfl
@[simp] theorem State.perform_refusals (as rest : List Action) : (s.perform as rest).refusals = s.refusals := rfl
@[simp] theorem State.perform_inputs (as rest : List Action) : (s.perform as rest).inputs = s.inputs := rfl

@[simp] theorem State.withInputs_cfg (xs : List Input) : (s.withInputs xs).cfg = s.cfg := rfl
@[simp] theorem State.withInputs_lines (xs : List Input) : (s.withInputs xs).lines = s.lines := rfl
@[simp] theorem State.withInputs_phase (xs : List Input) : (s.withInputs xs).phase = s.phase := rfl
@[simp] theorem State.withInputs_pending (xs : List Input) : (s.withInputs xs).pending = s.pending := rfl
@[simp] theorem State.withInputs_trace (xs : List Input) : (s.withInputs xs).trace = s.trace := rfl
@[simp] theorem State.withInputs_refusals (xs : List Input) : (s.withInputs xs).refusals = s.refusals := rfl
@[simp] theorem State.withInputs_inputs (xs : List Input) : (s.withInputs xs).inputs = xs := rfl

@[simp] theorem State.construct_cfg (c : Config) : (s.construct c).cfg = c := rfl
@[simp] theorem State.construct_lines (c : Config) : (s.construct c).lines = Lines.unknown c.lineCount := rfl
@[simp] theorem State.construct_phase (c : Config) : (s.construct c).phase = .constructing := rfl
@[simp] theorem State.construct_pending (c : Config) : (s.construct c).pending = initSeq c := rfl
@[simp] theorem State.construct_trace (c : Config) : (s.construct c).trace = [] := rfl
@[simp] theorem State.construct_refusals (c : Config) : (s.construct c).refusals = s.refusals := rfl
@[simp] theorem State.construct_inputs (c : Config) : (s.construct c).inputs = s.inputs := rfl

@[simp] theorem State.settle_cfg : (s.settle).cfg = s.cfg := rfl
@[simp] theorem State.settle_lines : (s.settle).lines = applyAll s.lines s.pending := rfl
@[simp] theorem State.settle_pending : (s.settle).pending = [] := rfl
@[simp] theorem State.settle_trace : (s.settle).trace = s.trace ++ s.pending := rfl
@[simp] theorem State.settle_refusals : (s.settle).refusals = s.refusals := rfl
@[simp] theorem State.settle_inputs : (s.settle).inputs = s.inputs := rfl

@[simp] theorem State.settle_phase_constructing (h : s.phase = .constructing) : s.settle.phase = .ready := by
  simp [State.settle, h]

@[simp] theorem State.settle_phase_running (op : OpName) (h : s.phase = .running op) : s.settle.phase = .ready := by
  simp [State.settle, h]

@[simp] theorem State.settle_phase_ready (h : s.phase = .ready) : s.settle.phase = .ready := by
  simp [State.settle, h]

@[simp] theorem State.settle_phase_dropped (h : s.phase = .dropped) : s.settle.phase = .dropped := by
  simp [State.settle, h]

/-- The sequencer's own step does not read the inputs. -/
@[simp] theorem State.idle_withInputs (xs : List Input) : (s.withInputs xs).idle = s.idle := rfl

@[simp] theorem State.acceptanceRefusal_withInputs (xs : List Input) :
    (s.withInputs xs).acceptanceRefusal = s.acceptanceRefusal := rfl

/-- A call is accepted exactly in `Ready` with nothing pending (R98). -/
theorem State.acceptanceRefusal_none : s.acceptanceRefusal = none ↔ s.phase = .ready ∧ s.pending = [] := by
  unfold State.acceptanceRefusal
  cases h : s.phase <;> simp

/-- A busy instance refuses with `NotReady` (R98). -/
theorem State.acceptanceRefusal_busy (h : s.phase = .constructing ∨ ∃ op, s.phase = .running op) :
    s.acceptanceRefusal = some .notReady := by
  unfold State.acceptanceRefusal
  rcases h with h | ⟨op, h⟩ <;> simp [h]

/-- A dropped instance refuses with `Dropped` (R98). -/
theorem State.acceptanceRefusal_dropped (h : s.phase = .dropped) : s.acceptanceRefusal = some .dropped := by
  simp [State.acceptanceRefusal, h]

/-- `State.idle` says that the sequencer has no step to take (R27). -/
theorem State.idle_iff : s.idle = true ↔ s.pending = [] ∧ (s.phase = .ready ∨ s.phase = .dropped) := by
  simp [State.idle]

end Sys2Proof.Machine
end

