-- ==== Sys2Proof/Laws/Sequence.lean ====
section
/-! SUPPORT. Everything the sequencer can do, said once: one step, and as many steps as there are actions. -/

namespace Sys2Proof.Machine

/-- What a sequencer step can answer with a next state (R27). -/
theorem sequence_cases {s t : State} (h : s.sequence = .next t) :
    (∃ a rest, s.pending = a :: rest ∧ a.fault s.lines = none ∧ t = s.emit a rest) ∨
    (s.pending = [] ∧ (s.phase = .constructing ∨ ∃ op, s.phase = .running op) ∧ t = s.becomeReady) ∨
    (s.pending = [] ∧ (s.phase = .ready ∨ s.phase = .dropped) ∧ t = s) := by
  unfold State.sequence at h
  split at h
  · next a rest hp =>
    split at h
    · simp at h
    · next hf => exact .inl ⟨a, rest, hp, hf, by simpa using h.symm⟩
  · next hp =>
    split at h
    · next hc => exact .inr (.inl ⟨hp, .inl hc, by simpa using h.symm⟩)
    · next op hc => exact .inr (.inl ⟨hp, .inr ⟨op, hc⟩, by simpa using h.symm⟩)
    · next hc => exact .inr (.inr ⟨hp, .inl hc, by simpa using h.symm⟩)
    · next hc => exact .inr (.inr ⟨hp, .inr hc, by simpa using h.symm⟩)

/-- The sequencer always has a meaning. -/
theorem sequence_not_refused (s : State) (r : Refusal) : s.sequence ≠ .refused r := by
  unfold State.sequence
  split
  · split <;> simp
  · split <;> simp

/-- A sequencer step faults only on its next action (R24, U2). -/
theorem sequence_fault {s : State} {f : Fault} (h : s.sequence = .fault f) :
    ∃ a rest, s.pending = a :: rest ∧ a.fault s.lines = some f := by
  unfold State.sequence at h
  split at h
  · next a rest hp =>
    split at h
    · next g hg => exact ⟨a, rest, hp, by simpa [hg] using h⟩
    · simp at h
  · split at h <;> simp at h

/-- As many sequencer steps as actions perform these actions, if none of them meets a fault (R26, R27). -/
theorem sequenceTimes_performs {s : State} {as rest : List Action} (hp : s.pending = as ++ rest)
    (hf : performable s.lines as = true) : s.sequenceTimes as.length = .next (s.perform as rest) := by
  induction as generalizing s with
  | nil => cases s; simp_all [State.sequenceTimes, State.perform]
  | cons a as ih =>
    simp only [performable, Bool.and_eq_true, Option.isNone_iff_eq_none] at hf
    have hs : s.sequence = .next (s.emit a (as ++ rest)) := by rw [State.sequence, hp]; simp [hf.1]
    rw [List.length_cons, State.sequenceTimes, hs]
    exact (ih (s := s.emit a (as ++ rest)) rfl hf.2).trans (by simp [State.perform, State.emit])

/-- A next state after as many sequencer steps as actions is the one with these actions performed. -/
theorem sequenceTimes_next {s t : State} {as rest : List Action} (hp : s.pending = as ++ rest)
    (h : s.sequenceTimes as.length = .next t) : t = s.perform as rest := by
  induction as generalizing s with
  | nil => cases s; simp_all [State.sequenceTimes, State.perform]
  | cons a as ih =>
    rw [List.length_cons, State.sequenceTimes] at h
    cases hs : s.sequence with
    | fault f => simp [hs] at h
    | refused r => simp [hs] at h
    | next x =>
      simp only [hs] at h
      rcases sequence_cases hs with ⟨b, r, hb, -, rfl⟩ | ⟨hn, -⟩ | ⟨hn, -⟩
      · obtain ⟨rfl, rfl⟩ : a = b ∧ as ++ rest = r := by simpa using hp.symm.trans hb
        exact (ih (s := s.emit a (as ++ rest)) rfl h).trans (by simp [State.perform, State.emit])
      · simp [hp] at hn
      · simp [hp] at hn

/-- The sequencer always has a meaning, however many steps it takes. -/
theorem sequenceTimes_not_refused (k : Nat) (s : State) (r : Refusal) : s.sequenceTimes k ≠ .refused r := by
  induction k generalizing s with
  | zero => simp [State.sequenceTimes]
  | succ k ih =>
    rw [State.sequenceTimes]
    cases hs : s.sequence with
    | fault f => simp
    | refused q => exact absurd hs (sequence_not_refused s q)
    | next x => exact ih x

/-- Step k of initialization is what comes first of step k and everything after it (R61). -/
theorem initStep_append (cfg : Config) (k : Nat) :
    ((initSteps cfg).drop k).flatten = initStep cfg k ++ ((initSteps cfg).drop (k + 1)).flatten := by
  rw [initStep]
  by_cases h : k < (initSteps cfg).length
  · rw [List.drop_eq_getElem_cons h, List.flatten_cons, List.getD_eq_getElem _ _ h]
  · rw [List.getD_eq_default _ _ (by omega), List.drop_eq_nil_of_le (by omega), List.drop_eq_nil_of_le (by omega)]; rfl

/-- At the beginning of initialization step k that step is what is pending first (R61). -/
theorem State.atInitStep_iff (s : State) (k : Nat) : s.atInitStep k = true ↔
    s.phase = .constructing ∧ s.pending = initStep s.cfg k ++ ((initSteps s.cfg).drop (k + 1)).flatten := by
  rw [State.atInitStep, initStep_append]; simp

/-- What an operation that only initialization emits can do: its step, or a refusal (R58, R98). -/
theorem initializationOnly_cases (k : Nat) (own : Bool) (s : State) :
    (own = true ∧ s.atInitStep k = true ∧ initializationOnly k own s = s.sequenceTimes (initStep s.cfg k).length) ∨
    ((own && s.atInitStep k) = false ∧
      ∃ r, s.acceptanceRefusal = some r ∧ initializationOnly k own s = .next (s.markRefused r)) ∨
    ((own && s.atInitStep k) = false ∧ s.acceptanceRefusal = none ∧
      initializationOnly k own s = .refused .notEmitted) := by
  unfold initializationOnly
  cases h : (own && s.atInitStep k) with
  | true => exact .inl ⟨by simp_all, by simp_all, rfl⟩
  | false => cases s.acceptanceRefusal with
    | some r => exact .inr (.inl ⟨rfl, r, rfl, rfl⟩)
    | none => exact .inr (.inr ⟨rfl, rfl, rfl⟩)

/-- A next state of an operation that only initialization emits: the mark extended, or its step performed. -/
theorem initializationOnly_next {k : Nat} {own : Bool} {s t : State} (h : initializationOnly k own s = .next t) :
    (∃ r, t = s.markRefused r) ∨
    (own = true ∧ s.phase = .constructing ∧
      s.pending = initStep s.cfg k ++ ((initSteps s.cfg).drop (k + 1)).flatten ∧
      t = s.perform (initStep s.cfg k) ((initSteps s.cfg).drop (k + 1)).flatten) := by
  rcases initializationOnly_cases k own s with ⟨ho, ha, hs⟩ | ⟨-, r, -, hs⟩ | ⟨-, -, hs⟩ <;> rw [hs] at h
  · obtain ⟨hph, hp⟩ := (s.atInitStep_iff k).mp ha
    exact .inr ⟨ho, hph, hp, sequenceTimes_next hp h⟩
  · exact .inl ⟨r, by simpa using h.symm⟩
  · simp at h

/-- It faults only as the actions of its step do. -/
theorem initializationOnly_never_faults {k : Nat} {own : Bool} {s : State}
    (hf : s.atInitStep k = true → performable s.lines (initStep s.cfg k) = true) (f : Fault) :
    initializationOnly k own s ≠ .fault f := by
  rcases initializationOnly_cases k own s with ⟨-, ha, hs⟩ | ⟨-, r, -, hs⟩ | ⟨-, -, hs⟩ <;> rw [hs]
  · simp [sequenceTimes_performs ((s.atInitStep_iff k).mp ha).2 (hf ha)]
  · simp
  · simp

/-- At its step, an operation that only initialization emits performs that step (R61). -/
theorem initializationOnly_at {k : Nat} {s : State} (ha : s.atInitStep k = true)
    (hf : performable s.lines (initStep s.cfg k) = true) :
    initializationOnly k true s = .next (s.perform (initStep s.cfg k) ((initSteps s.cfg).drop (k + 1)).flatten) := by
  rw [initializationOnly, ha]
  exact sequenceTimes_performs ((s.atInitStep_iff k).mp ha).2 hf

end Sys2Proof.Machine
end

