-- ==== Sys2Proof/Laws/Exec.lean ====
section
/-! SUPPORT. Everything a call can do, said once: `accept_cases` for the shared operation, `exec_cases` for any
operation. -/

namespace Sys2Proof.Machine

/-- What accepting can answer (R98, R99). -/
theorem accept_cases {op : OpName} {operand : Option RefuseReason} {as : List Action} {s t : State}
    (h : accept op operand as s = .next t) :
    (∃ r, s.acceptanceRefusal = some r ∧ t = s.markRefused r) ∨
    (s.acceptanceRefusal = none ∧ ∃ r, operand = some r ∧ t = s.markRefused r) ∨
    (s.acceptanceRefusal = none ∧ operand = none ∧ t = s.begin op as) := by
  unfold accept at h
  split at h
  · next r hr => exact .inl ⟨r, hr, by simpa using h.symm⟩
  · next hr =>
    split at h
    · next r => exact .inr (.inl ⟨hr, r, rfl, by simpa using h.symm⟩)
    · exact .inr (.inr ⟨hr, rfl, by simpa using h.symm⟩)

/-- Accepting never faults and is never without meaning. -/
theorem accept_next (op : OpName) (operand : Option RefuseReason) (as : List Action) (s : State) :
    ∃ t, accept op operand as s = .next t := by
  unfold accept; split
  · exact ⟨_, rfl⟩
  · split <;> exact ⟨_, rfl⟩

/-- An idle instance accepts an operation whose operands call for no refusal (R98). -/
theorem accept_ready {op : OpName} {as : List Action} {s : State} (hp : s.phase = .ready) (he : s.pending = []) :
    accept op none as s = .next (s.begin op as) := by
  simp [accept, s.acceptanceRefusal_none.mpr ⟨hp, he⟩]

/-- An instance that refuses marks the reason, whatever the operation (R98, R99). -/
theorem accept_refuses {op : OpName} {operand : Option RefuseReason} {as : List Action} {s : State} {r : RefuseReason}
    (h : s.acceptanceRefusal = some r) : accept op operand as s = .next (s.markRefused r) := by
  simp [accept, h]

/-- The operations with API syntax are those that no step of initialization has to itself (R58). -/
theorem isApi_eq_emittingStep (i : Instr) : i.isApi = (emittingStep i).isNone := by cases i <;> rfl

/-- What runs on an idle instance has API syntax (R58). -/
theorem runsWhenReady_isApi {i : Instr} (h : runsWhenReady i = true) : i.isApi = true := by
  cases i <;> first | rfl | simp [runsWhenReady, opName] at h

/-- What a call can answer with a next state: a refusal recorded, an expansion accepted, a new instance, its end, or a
step of initialization performed. -/
theorem exec_cases {i : Instr} {s t : State} (h : exec i s = .next t) :
    (∃ r, t = s.markRefused r) ∨
    (∃ op, opName i = some op ∧ runsWhenReady i = true ∧ s.phase = .ready ∧ s.pending = [] ∧
      t = s.begin op (expansion s.cfg i)) ∨
    (∃ cfg, i = .new cfg ∧ cfg.wf = true ∧ t = s.construct cfg) ∨
    (i = .drop ∧ s.phase = .ready ∧ s.pending = [] ∧ t = s.becomeDropped) ∨
    (∃ k, emittingStep i = some k ∧ s.phase = .constructing ∧
      s.pending = initStep s.cfg k ++ ((initSteps s.cfg).drop (k + 1)).flatten ∧
      t = s.perform (initStep s.cfg k) ((initSteps s.cfg).drop (k + 1)).flatten) := by
  have key : ∀ {op operand as}, accept op operand as s = .next t → opName i = some op → expansion s.cfg i = as →
      (operand = none → runsWhenReady i = true) →
      (∃ r, t = s.markRefused r) ∨
      (∃ op, opName i = some op ∧ runsWhenReady i = true ∧ s.phase = .ready ∧ s.pending = [] ∧
        t = s.begin op (expansion s.cfg i)) := by
    intro op operand as h hn he hr
    rcases accept_cases h with ⟨r, -, ht⟩ | ⟨-, r, -, ht⟩ | ⟨ha, ho, ht⟩
    · exact .inl ⟨r, ht⟩
    · exact .inl ⟨r, ht⟩
    · obtain ⟨h1, h2⟩ := s.acceptanceRefusal_none.mp ha
      exact .inr ⟨op, hn, hr ho, h1, h2, he ▸ ht⟩
  have lift : ∀ {P Q R : Prop}, P ∨ Q → P ∨ Q ∨ R := fun h => h.elim .inl (fun q => .inr (.inl q))
  have only : ∀ {k own}, initializationOnly k own s = .next t → emittingStep i = some k →
      (∃ r, t = s.markRefused r) ∨ (∃ k, emittingStep i = some k ∧ s.phase = .constructing ∧
        s.pending = initStep s.cfg k ++ ((initSteps s.cfg).drop (k + 1)).flatten ∧
        t = s.perform (initStep s.cfg k) ((initSteps s.cfg).drop (k + 1)).flatten) :=
    fun h hk => (initializationOnly_next h).imp_right fun q => ⟨_, hk, q.2⟩
  have lift' : ∀ {P Q R S T : Prop}, P ∨ T → P ∨ Q ∨ R ∨ S ∨ T :=
    fun h => h.elim .inl (fun q => .inr (.inr (.inr (.inr q))))
  cases i with
  | new cfg =>
    simp only [exec, execNew] at h
    split at h
    · next hc =>
      exact .inr (.inr (.inl ⟨cfg, rfl, configAccepted_eq_wf cfg ▸ hc, by simpa using h.symm⟩))
    · exact .inl ⟨_, by simpa using h.symm⟩
  | drop =>
    simp only [exec, execDrop] at h
    split at h
    · exact .inl ⟨_, by simpa using h.symm⟩
    · next ha =>
      obtain ⟨h1, h2⟩ := s.acceptanceRefusal_none.mp ha
      exact .inr (.inr (.inr (.inl ⟨rfl, h1, h2, by simpa using h.symm⟩)))
  | functionSet w => simp only [exec, execFunctionSet] at h; exact lift' (only h rfl)
  | writeChar c =>
    simp only [exec, execWriteChar] at h
    exact lift (key h rfl rfl fun ho => by
      have := (codesRefusal_none [c]).mp ho
      simpa [runsWhenReady, opName, Instr.wf] using this)
  | writeStr cs =>
    simp only [exec, execWriteStr] at h
    exact lift (key h rfl rfl fun ho => by
      have := (codesRefusal_none cs).mp ho
      simp only [runsWhenReady, opName, Instr.wf, this]; rfl)
  | setCursorPos pos => simp only [exec, execSetCursorPos] at h; exact lift (key h rfl rfl fun _ => rfl)
  | shiftDisplay dir => simp only [exec, execShiftDisplay] at h; exact lift (key h rfl rfl fun _ => rfl)
  | shiftCursor dir => simp only [exec, execShiftCursor] at h; exact lift (key h rfl rfl fun _ => rfl)
  | setDisplayMode on c b => simp only [exec, execSetDisplayMode] at h; exact lift (key h rfl rfl fun _ => rfl)
  | entryModeSet => simp only [exec, execEntryModeSet] at h; exact lift' (only h rfl)
  | reset => simp only [exec, execReset] at h; exact lift (key h rfl rfl fun _ => rfl)
  | clear => simp only [exec, execClear] at h; exact lift (key h rfl rfl fun _ => rfl)
  | functionSetRaw => simp only [exec, execFunctionSetRaw] at h; exact lift' (only h rfl)

/-- No call faults (R96), but for those that perform a step of initialization: they fault as its actions do. -/
theorem exec_never_faults (i : Instr) (s : State) (f : Fault)
    (hr : ∀ k, emittingStep i = some k → s.atInitStep k = true → performable s.lines (initStep s.cfg k) = true) :
    exec i s ≠ .fault f := by
  have only : ∀ k own, emittingStep i = some k → initializationOnly k own s ≠ .fault f :=
    fun k own hk => initializationOnly_never_faults (hr k hk) f
  have key : ∀ op operand as, accept op operand as s ≠ .fault f := fun op operand as h => by
    obtain ⟨t, ht⟩ := accept_next op operand as s
    simp [ht] at h
  cases i with
  | new cfg => simp only [exec, execNew]; split <;> simp
  | drop => simp only [exec, execDrop]; split <;> simp
  | functionSet w => simp only [exec, execFunctionSet]; exact only _ _ rfl
  | writeChar c => simp only [exec, execWriteChar]; exact key _ _ _
  | writeStr cs => simp only [exec, execWriteStr]; exact key _ _ _
  | setCursorPos pos => simp only [exec, execSetCursorPos]; exact key _ _ _
  | shiftDisplay dir => simp only [exec, execShiftDisplay]; exact key _ _ _
  | shiftCursor dir => simp only [exec, execShiftCursor]; exact key _ _ _
  | setDisplayMode on c b => simp only [exec, execSetDisplayMode]; exact key _ _ _
  | entryModeSet => simp only [exec, execEntryModeSet]; exact only _ _ rfl
  | reset => simp only [exec, execReset]; exact key _ _ _
  | clear => simp only [exec, execClear]; exact key _ _ _
  | functionSetRaw => simp only [exec, execFunctionSetRaw]; exact only _ _ rfl

/-- Every call of the API answers a next state (R58). -/
theorem exec_api_next (i : Instr) (s : State) (h : i.isApi = true) : ∃ t, exec i s = .next t := by
  cases i with
  | new cfg => simp only [exec, execNew]; split <;> exact ⟨_, rfl⟩
  | drop => simp only [exec, execDrop]; split <;> exact ⟨_, rfl⟩
  | functionSet w => simp [Instr.isApi] at h
  | entryModeSet => simp [Instr.isApi] at h
  | functionSetRaw => simp [Instr.isApi] at h
  | writeChar c => simp only [exec, execWriteChar]; exact accept_next _ _ _ _
  | writeStr cs => simp only [exec, execWriteStr]; exact accept_next _ _ _ _
  | setCursorPos pos => simp only [exec, execSetCursorPos]; exact accept_next _ _ _ _
  | shiftDisplay dir => simp only [exec, execShiftDisplay]; exact accept_next _ _ _ _
  | shiftCursor dir => simp only [exec, execShiftCursor]; exact accept_next _ _ _ _
  | setDisplayMode on c b => simp only [exec, execSetDisplayMode]; exact accept_next _ _ _ _
  | reset => simp only [exec, execReset]; exact accept_next _ _ _ _
  | clear => simp only [exec, execClear]; exact accept_next _ _ _ _

/-- An operation that runs on an idle instance is accepted with its whole expansion (R25, R98). -/
theorem exec_runs {i : Instr} {s : State} (hr : runsWhenReady i = true) (hp : s.phase = .ready) (he : s.pending = []) :
    ∃ op, opName i = some op ∧ exec i s = .next (s.begin op (expansion s.cfg i)) := by
  cases i with
  | new cfg => simp [runsWhenReady, opName] at hr
  | drop => simp [runsWhenReady, opName] at hr
  | functionSet w => simp [runsWhenReady, opName] at hr
  | writeChar c =>
    simp only [runsWhenReady, Bool.and_eq_true] at hr
    have : codesRefusal [c] = none := (codesRefusal_none [c]).mpr (by simpa [Instr.wf] using hr.2)
    exact ⟨_, rfl, by simp only [exec, execWriteChar, this]; exact accept_ready hp he⟩
  | writeStr cs =>
    simp only [runsWhenReady, Bool.and_eq_true] at hr
    have : codesRefusal cs = none := (codesRefusal_none cs).mpr (by simpa [Instr.wf] using hr.2)
    exact ⟨_, rfl, by simp only [exec, execWriteStr, this]; exact accept_ready hp he⟩
  | setCursorPos pos => exact ⟨_, rfl, by simp only [exec, execSetCursorPos]; exact accept_ready hp he⟩
  | shiftDisplay dir => exact ⟨_, rfl, by simp only [exec, execShiftDisplay]; exact accept_ready hp he⟩
  | shiftCursor dir => exact ⟨_, rfl, by simp only [exec, execShiftCursor]; exact accept_ready hp he⟩
  | setDisplayMode on c b => exact ⟨_, rfl, by simp only [exec, execSetDisplayMode]; exact accept_ready hp he⟩
  | entryModeSet => simp [runsWhenReady, opName] at hr
  | reset => exact ⟨_, rfl, by simp only [exec, execReset]; exact accept_ready hp he⟩
  | clear => exact ⟨_, rfl, by simp only [exec, execClear]; exact accept_ready hp he⟩
  | functionSetRaw => simp [runsWhenReady, opName] at hr

end Sys2Proof.Machine
end

