-- ==== Sys2Proof/Laws/Transfer.lean ====
section
/-! SUPPORT. What the transfer primitives do to the latches and to the latch log: one lemma each says all of it. -/

namespace Sys2Proof.Machine

/-- The data levels of a byte, bit i on line i (R38). -/
def byteLevels (b : Byte) : List Level :=
  [lvl (b.getLsbD 0), lvl (b.getLsbD 1), lvl (b.getLsbD 2), lvl (b.getLsbD 3),
   lvl (b.getLsbD 4), lvl (b.getLsbD 5), lvl (b.getLsbD 6), lvl (b.getLsbD 7)]

/-- The data levels of a nibble, bit j on line j (R39). -/
def nibbleLevels (v : BitVec 4) : List Level :=
  [lvl (v.getLsbD 0), lvl (v.getLsbD 1), lvl (v.getLsbD 2), lvl (v.getLsbD 3)]

theorem busValue_byteLevels (b : Byte) : busValue (byteLevels b) = b.toNat := by
  revert b; decide +kernel

theorem busValue_nibbleLevels (v : BitVec 4) : busValue (nibbleLevels v) = v.toNat := by
  revert v; decide

/-- The levels a transfer leaves on the data lines: the byte, or its low nibble (R87, R88). -/
def lastLevels (m : BusMode) (b : Byte) : List Level :=
  match m with
  | .eightLine => byteLevels b
  | .fourLine => nibbleLevels (b.extractLsb' 0 4)

/-- The entries a transfer makes under one RS level (R50). -/
def transferEntries (m : BusMode) (rs : Bool) (b : Byte) : List LatchEntry :=
  match m with
  | .eightLine => [.word rs b.toNat]
  | .fourLine => [.word rs (b.extractLsb' 4 4).toNat, .word rs (b.extractLsb' 0 4).toNat]

theorem lastLevels_length (m : BusMode) (b : Byte) : (lastLevels m b).length = m.lineCount := by cases m <;> rfl

theorem lastLevels_known (m : BusMode) (b : Byte) : ∀ v ∈ lastLevels m b, v ≠ .unknown := by
  cases m <;> simp [lastLevels, byteLevels, nibbleLevels, lvl_ne_unknown]

/-- The data drives and the pulse of one cycle in `EightLine`. -/
theorem byte_cycle (T : DelayTable) (b : Byte) (rs en : Level) (d : List Level) (hd : d.length = 8)
    (hrs : rs ≠ .unknown) :
    applyAll ⟨rs, en, d⟩ (driveByte b ++ pulse T) = ⟨rs, .low, byteLevels b⟩ ∧
    performable ⟨rs, en, d⟩ (driveByte b ++ pulse T) = true ∧
    latchLogFrom ⟨rs, en, d⟩ (driveByte b ++ pulse T) = [.word (rs == .high) b.toNat] := by
  obtain ⟨a0, a1, a2, a3, a4, a5, a6, a7, rfl⟩ := eight_levels d hd
  rw [← busValue_byteLevels b]
  refine ⟨?_, ?_, ?_⟩ <;>
    simp [driveByte, pulse, Action.apply, Lines.set, performable, Action.fault, Lines.has, Lines.known, hrs,
      latchLogFrom, Lines.latch, byteLevels]

/-- The data drives and the pulse of one cycle in `FourLine`. -/
theorem nibble_cycle (T : DelayTable) (v : BitVec 4) (rs en : Level) (d : List Level) (hd : d.length = 4)
    (hrs : rs ≠ .unknown) :
    applyAll ⟨rs, en, d⟩ (driveNibble v ++ pulse T) = ⟨rs, .low, nibbleLevels v⟩ ∧
    performable ⟨rs, en, d⟩ (driveNibble v ++ pulse T) = true ∧
    latchLogFrom ⟨rs, en, d⟩ (driveNibble v ++ pulse T) = [.word (rs == .high) v.toNat] := by
  obtain ⟨a0, a1, a2, a3, rfl⟩ := four_levels d hd
  rw [← busValue_nibbleLevels v]
  refine ⟨?_, ?_, ?_⟩ <;>
    simp [driveNibble, pulse, Action.apply, Lines.set, performable, Action.fault, Lines.has, Lines.known, hrs,
      latchLogFrom, Lines.latch, nibbleLevels]

/-- What `Transfer(b)` does, in both modes (R87, R88). -/
theorem transfer_effect (m : BusMode) (T : DelayTable) (b : Byte) (rs en : Level) (d : List Level)
    (hd : d.length = m.lineCount) (hrs : rs ≠ .unknown) :
    applyAll ⟨rs, en, d⟩ (transfer m T b) = ⟨rs, .low, lastLevels m b⟩ ∧
    performable ⟨rs, en, d⟩ (transfer m T b) = true ∧
    latchLogFrom ⟨rs, en, d⟩ (transfer m T b) = transferEntries m (rs == .high) b := by
  cases m with
  | eightLine => exact byte_cycle T b rs en d hd hrs
  | fourLine =>
    obtain ⟨h1, h2, h3⟩ := nibble_cycle T (b.extractLsb' 4 4) rs en d hd hrs
    obtain ⟨k1, k2, k3⟩ := nibble_cycle T (b.extractLsb' 0 4) rs .low (nibbleLevels (b.extractLsb' 4 4)) rfl hrs
    have e : transfer .fourLine T b
        = (driveNibble (b.extractLsb' 4 4) ++ pulse T) ++ (driveNibble (b.extractLsb' 0 4) ++ pulse T) := by
      simp [transfer]
    rw [e, applyAll_append, performable_append, latchLogFrom_append, h1, h2, h3, k1, k2, k3]
    exact ⟨rfl, rfl, rfl⟩

/-- What a command cycle does from any latches of the right count (R85): it needs nothing to be known before it. -/
theorem commandCycle_effect (cfg : Config) (b : Byte) (t : Nat) (rs en : Level) (d : List Level)
    (hd : d.length = cfg.mode.lineCount) :
    applyAll ⟨rs, en, d⟩ (commandCycle cfg b t) = ⟨.low, .low, lastLevels cfg.mode b⟩ ∧
    performable ⟨rs, en, d⟩ (commandCycle cfg b t) = true ∧
    latchLogFrom ⟨rs, en, d⟩ (commandCycle cfg b t) = transferEntries cfg.mode false b := by
  obtain ⟨h1, h2, h3⟩ := transfer_effect cfg.mode cfg.delays b .low en d hd (by decide)
  have e : (Action.drive .rs false).apply ⟨rs, en, d⟩ = ⟨.low, en, d⟩ := rfl
  refine ⟨?_, ?_, ?_⟩
  · rw [commandCycle, applyAll_cons, e, applyAll_append, h1]; rfl
  · rw [commandCycle, performable, e, performable_append, h1, h2]; rfl
  · rw [commandCycle, latchLogFrom, e, latchLogFrom_append, h1, h3]
    · cases cfg.mode <;> rfl
    · simp

/-- What a data cycle does from any latches of the right count (R86). -/
theorem dataCycle_effect (cfg : Config) (c : Byte) (rs en : Level) (d : List Level)
    (hd : d.length = cfg.mode.lineCount) :
    applyAll ⟨rs, en, d⟩ (dataCycle cfg c) = ⟨.low, .low, lastLevels cfg.mode c⟩ ∧
    performable ⟨rs, en, d⟩ (dataCycle cfg c) = true ∧
    latchLogFrom ⟨rs, en, d⟩ (dataCycle cfg c) = transferEntries cfg.mode true c := by
  obtain ⟨h1, h2, h3⟩ := transfer_effect cfg.mode cfg.delays c .high en d hd (by decide)
  have e : (Action.drive .rs true).apply ⟨rs, en, d⟩ = ⟨.high, en, d⟩ := rfl
  refine ⟨?_, ?_, ?_⟩
  · rw [dataCycle, applyAll_cons, e, applyAll_append, h1]; rfl
  · rw [dataCycle, performable, e, performable_append, h1, h2]
    simp [performable, Action.fault, Lines.has]
  · rw [dataCycle, latchLogFrom, e, latchLogFrom_append, h1, h3]
    · cases cfg.mode <;> rfl
    · simp

/-- What the raw function-set write does once RS has been driven low (R64). -/
theorem rawFunctionSet_effect (cfg : Config) (en : Level) (d : List Level) (hd : d.length = cfg.mode.lineCount) :
    applyAll ⟨.low, en, d⟩ (rawFunctionSet cfg)
      = ⟨.low, .low, match cfg.mode with | .eightLine => byteLevels 0x38 | .fourLine => nibbleLevels 0x2⟩ ∧
    performable ⟨.low, en, d⟩ (rawFunctionSet cfg) = true ∧
    latchLogFrom ⟨.low, en, d⟩ (rawFunctionSet cfg) = wireEntries cfg.mode (rawWord cfg.mode) := by
  obtain ⟨m, n, c, b, T⟩ := cfg
  cases m with
  | eightLine => exact byte_cycle T 0x38 .low en d hd (by decide)
  | fourLine => exact nibble_cycle T 0x2 .low en d hd (by decide)

/-- The entries of a command word are those of its byte's transfer with RS low (R49, R50). -/
theorem wireEntries_commandWord (m : BusMode) (b : Byte) :
    wireEntries m (.bus (commandWord b)) = transferEntries m false b := by
  cases m <;> (revert b; decide +kernel)

/-- The entries of a data word are those of its code's transfer with RS high (R49, R52). -/
theorem wireEntries_dataWord (m : BusMode) (c : Nat) :
    wireEntries m (.bus (dataWord c)) = transferEntries m true (codeByte c) := by
  unfold dataWord codeByte
  generalize BitVec.ofNat 8 c = b
  cases m <;> (revert b; decide +kernel)

end Sys2Proof.Machine
end

