-- ==== Sys2Proof/Laws/Expansion.lean ====
section
/-! SUPPORT. What a whole expansion does to the latches and to the latch log, from the idle latches; and the
initialization sequence from the unknown ones (spec/40_initialization.md R61; spec/10_state.md R26). -/

namespace Sys2Proof.Machine

/-- A list of actions takes idle latches to idle latches, meets no fault, and latches exactly these words. -/
structure Sends (m : BusMode) (L : Lines) (as : List Action) (ws : List WireWord) : Prop where
  driven : (applyAll L as).Driven m.lineCount
  performed : performable L as = true
  latched : latchLogFrom L as = logOfWords m ws

/-- Two lists that send words, one after the other. -/
theorem Sends.append {m : BusMode} {L : Lines} {as bs : List Action} {ws vs : List WireWord}
    (h : Sends m L as ws) (k : Sends m (applyAll L as) bs vs) : Sends m L (as ++ bs) (ws ++ vs) where
  driven := by rw [applyAll_append]; exact k.driven
  performed := by rw [performable_append, h.performed, k.performed]; rfl
  latched := by rw [latchLogFrom_append, logOfWords_append, h.latched, k.latched]

/-- Sending nothing. -/
theorem Sends.nil {m : BusMode} {L : Lines} (h : L.Driven m.lineCount) : Sends m L [] [] := ⟨h, rfl, rfl⟩

theorem driven_lastLevels (m : BusMode) (b : Byte) : Lines.Driven m.lineCount ⟨.low, .low, lastLevels m b⟩ :=
  ⟨rfl, rfl, lastLevels_length m b, lastLevels_known m b⟩

/-- A command cycle sends its command word (R49, R85), from latches whose data lines need not be known. -/
theorem commandCycle_sends (cfg : Config) (b : Byte) (t : Nat) (L : Lines)
    (hd : L.data.length = cfg.mode.lineCount) : Sends cfg.mode L (commandCycle cfg b t) [.bus (commandWord b)] := by
  obtain ⟨rs, en, d⟩ := L
  obtain ⟨h1, h2, h3⟩ := commandCycle_effect cfg b t rs en d hd
  exact ⟨h1 ▸ driven_lastLevels _ _, h2, by simp [h3, logOfWords, wireEntries_commandWord]⟩

/-- A data cycle sends its data word (R52, R86). -/
theorem dataCycle_sends (cfg : Config) (c : Nat) (L : Lines)
    (hd : L.data.length = cfg.mode.lineCount) : Sends cfg.mode L (dataCycle cfg (codeByte c)) [.bus (dataWord c)] := by
  obtain ⟨rs, en, d⟩ := L
  obtain ⟨h1, h2, h3⟩ := dataCycle_effect cfg (codeByte c) rs en d hd
  exact ⟨h1 ▸ driven_lastLevels _ _, h2, by simp [h3, logOfWords, wireEntries_dataWord]⟩

/-- A string sends its characters' words in order (R83). -/
theorem stringCycles_sends (cfg : Config) (cs : List Nat) (L : Lines) (h : L.Driven cfg.mode.lineCount) :
    Sends cfg.mode L (stringCycles cfg cs) (cs.map fun c => .bus (dataWord c)) := by
  induction cs generalizing L with
  | nil => exact .nil h
  | cons c cs ih =>
    have k := dataCycle_sends cfg c L h.count
    exact k.append (ih _ k.driven)

/-- The raw write sends its word once RS is low (R64). -/
theorem rawFunctionSet_sends (cfg : Config) (L : Lines) (hrs : L.rs = .low)
    (hd : L.data.length = cfg.mode.lineCount) : Sends cfg.mode L (rawFunctionSet cfg) [rawWord cfg.mode] := by
  obtain ⟨rs, en, d⟩ := L
  obtain rfl : rs = .low := hrs
  obtain ⟨h1, h2, h3⟩ := rawFunctionSet_effect cfg en d hd
  refine ⟨?_, h2, by simp [h3, logOfWords]⟩
  rw [h1]
  cases hm : cfg.mode with
  | eightLine => exact driven_lastLevels .eightLine 0x38
  | fourLine => exact driven_lastLevels .fourLine 0x2

/-- A wait sends nothing. -/
theorem wait_sends {m : BusMode} {L : Lines} (t : Nat) (h : L.Driven m.lineCount) : Sends m L [.wait t] [] :=
  ⟨h, rfl, rfl⟩

/-- Every operation an idle instance runs sends exactly the words the encoder gives it (R43, R50). -/
theorem expansion_sends {cfg : Config} {i : Instr} {L : Lines} (hr : runsWhenReady i = true)
    (h : L.Driven cfg.mode.lineCount) : Sends cfg.mode L (expansion cfg i) (encode cfg.mode i) := by
  cases i with
  | writeChar c => exact dataCycle_sends cfg c L h.count
  | writeStr cs => exact stringCycles_sends cfg cs L h
  | setCursorPos pos =>
    simp only [expansion, encode, cursorPosByte_layout]; exact commandCycle_sends cfg _ _ L h.count
  | functionSet w => simp [runsWhenReady, opName] at hr
  | shiftDisplay dir =>
    simp only [expansion, encode, displayShiftByte_layout]; exact commandCycle_sends cfg _ _ L h.count
  | shiftCursor dir =>
    simp only [expansion, encode, cursorShiftByte_layout]; exact commandCycle_sends cfg _ _ L h.count
  | setDisplayMode on c b =>
    simp only [expansion, encode, displayControlByte_layout]; exact commandCycle_sends cfg _ _ L h.count
  | entryModeSet => simp [runsWhenReady, opName] at hr
  | reset => exact commandCycle_sends cfg _ _ L h.count
  | clear => exact commandCycle_sends cfg _ _ L h.count
  | functionSetRaw => simp [runsWhenReady, opName] at hr
  | new cfg' => simp [runsWhenReady, opName] at hr
  | drop => simp [runsWhenReady, opName] at hr

/-- A sequence of operations sends their words in program order (R45). -/
theorem expansions_sends {cfg : Config} {ops : List Instr} {L : Lines} (hr : ∀ i ∈ ops, runsWhenReady i = true)
    (h : L.Driven cfg.mode.lineCount) : Sends cfg.mode L (expansions cfg ops) (ops.flatMap (encode cfg.mode)) := by
  induction ops generalizing L with
  | nil => exact .nil h
  | cons i ops ih =>
    have k := expansion_sends (hr i (by simp)) h
    have k' := ih (fun j hj => hr j (by simp [hj])) k.driven
    exact k.append k'

/-- The initialization sequence, from the unknown lines of construction entry, sends the constructor's words (R61). -/
theorem initSeq_sends (cfg : Config) (n : Nat) (hn : n = cfg.mode.lineCount) :
    Sends cfg.mode (Lines.unknown n) (initSeq cfg) (encode cfg.mode (.new cfg)) := by
  subst hn
  generalize hL : Lines.unknown cfg.mode.lineCount = L
  have hd : L.data.length = cfg.mode.lineCount := by simp [← hL, Lines.unknown]
  have hL1 : applyAll L [.drive .rs false, .drive .en false, .wait cfg.delays.tPor] = ⟨.low, .low, L.data⟩ := rfl
  have raw := rawFunctionSet_sends cfg ⟨.low, .low, L.data⟩ rfl hd
  have w3 := raw.append (wait_sends cfg.delays.tFs1 raw.driven)
  have c4 := w3.append (commandCycle_sends cfg (functionSetByte cfg.mode) cfg.delays.tInit _ w3.driven.count)
  have c5 := c4.append (commandCycle_sends cfg (displayControlByte true cfg.initCursor cfg.initBlink) cfg.delays.tInit _
    c4.driven.count)
  have c6 := c5.append (commandCycle_sends cfg clearByte cfg.delays.tClr _ c5.driven.count)
  have c7 := c6.append (commandCycle_sends cfg entryModeByte cfg.delays.tInit _ c6.driven.count)
  have e : initSeq cfg = [.drive .rs false, .drive .en false, .wait cfg.delays.tPor] ++
      (rawFunctionSet cfg ++ [.wait cfg.delays.tFs1] ++ commandCycle cfg (functionSetByte cfg.mode) cfg.delays.tInit
        ++ commandCycle cfg (displayControlByte true cfg.initCursor cfg.initBlink) cfg.delays.tInit
        ++ commandCycle cfg clearByte cfg.delays.tClr ++ commandCycle cfg entryModeByte cfg.delays.tInit) := by
    simp [initSeq, initSteps]
  have hw : encode cfg.mode (.new cfg) = [rawWord cfg.mode] ++ [] ++ [.bus (commandWord (functionSetByte cfg.mode))]
      ++ [.bus (commandWord (displayControlByte true cfg.initCursor cfg.initBlink))] ++ [.bus (commandWord clearByte)]
      ++ [.bus (commandWord entryModeByte)] := by
    have hb : ∀ c b : Bool, displayControlByte true c b = 0b000011#6 ++ BitVec.ofBool c ++ BitVec.ofBool b := by decide
    simp [encode, functionSetByte_layout, hb, entryModeByte_eq, clearByte]
  rw [e, hw]
  constructor
  · rw [applyAll_append, hL1]; exact c7.driven
  · rw [performable_append, hL1, c7.performed]
    simp [performable, Action.fault, Lines.has]
  · rw [latchLogFrom_append, hL1, c7.latched]; simp [latchLogFrom]

/-- Initialization leaves entry-mode-set's byte on the lines (R32). -/
theorem initSeq_lines (cfg : Config) (n : Nat) (hn : n = cfg.mode.lineCount) :
    applyAll (Lines.unknown n) (initSeq cfg) = ⟨.low, .low, lastLevels cfg.mode 0x06⟩ := by
  have e : initSeq cfg = ((initSteps cfg).take 7).flatten ++ commandCycle cfg entryModeByte cfg.delays.tInit := by
    simp [initSeq, initSteps]
  rw [e, applyAll_append]
  generalize hL : applyAll (Lines.unknown n) ((initSteps cfg).take 7).flatten = L
  have hd : L.data.length = cfg.mode.lineCount := by
    rw [← hL, applyAll_length, Lines.unknown, List.length_replicate, hn]
  obtain ⟨rs, en, d⟩ := L
  exact (commandCycle_effect cfg entryModeByte cfg.delays.tInit rs en d hd).1

end Sys2Proof.Machine
end

