-- ==== Sys2Proof/Laws/PerInstr.lean ====
section
/-! SUPPORT. Per-instruction families: a statement about an operation as syntax, with one lemma per constructor. -/

/-- Family `WordCount`: how many words a well-formed operation puts on the bus (spec/30_encoding.md R57, R58): one, or one
per character of a string, five for the constructor (spec/40_initialization.md R70), none for `drop`. -/
def Sys2Proof.Laws.WordCount.count : Sys2Proof.Instr → Nat
  | .writeStr cs => cs.length
  | .new _ => 5
  | .drop => 0
  | .writeChar _ => 1
  | .setCursorPos _ => 1
  | .functionSet _ => 1
  | .shiftDisplay _ => 1
  | .shiftCursor _ => 1
  | .setDisplayMode _ _ _ => 1
  | .entryModeSet => 1
  | .reset => 1
  | .clear => 1
  | .functionSetRaw => 1

/-- The family's statement about one operation. -/
def Sys2Proof.Laws.WordCount.Statement (i : Sys2Proof.Instr) : Prop :=
  ∀ m, (Sys2Proof.encode m i).length = Sys2Proof.Laws.WordCount.count i

namespace Sys2Proof.Laws.WordCount

theorem writeChar (c : Nat) : Statement (.writeChar c) := fun _ => rfl
theorem setCursorPos (pos : Byte) : Statement (.setCursorPos pos) := fun _ => rfl
theorem functionSet (width : BusMode) : Statement (.functionSet width) := fun _ => rfl
theorem shiftDisplay (dir : Direction) : Statement (.shiftDisplay dir) := fun _ => rfl
theorem shiftCursor (dir : Direction) : Statement (.shiftCursor dir) := fun _ => rfl
theorem setDisplayMode (on c b : Bool) : Statement (.setDisplayMode on c b) := fun _ => rfl
theorem entryModeSet : Statement .entryModeSet := fun _ => rfl
theorem reset : Statement .reset := fun _ => rfl
theorem clear : Statement .clear := fun _ => rfl
theorem functionSetRaw : Statement .functionSetRaw := fun _ => rfl
theorem writeStr (cs : List Nat) : Statement (.writeStr cs) := fun _ => by
  simp [Sys2Proof.encode, Sys2Proof.Laws.WordCount.count]
theorem new (cfg : Config) : Statement (.new cfg) := fun _ => rfl
theorem drop : Statement .drop := fun _ => rfl

end Sys2Proof.Laws.WordCount
end

