-- ==== Sys2Proof/Laws/Step.lean ====
section
/-! SUPPORT. Everything a step can do, said once, and the machine run to the end of what is pending. -/

namespace Sys2Proof.Machine

/-- Whose turn it is (R45, R98): a call of the inputs, or the sequencer's, with the inputs that are left. -/
theorem turn_cases (s : State) :
    (∃ i rest, s.turn = .run i (s.withInputs rest) ∧
      ((s.inputs = .overlap i :: rest) ∨ (s.inputs = .call i :: rest ∧ s.idle = true))) ∨
    (∃ rest, s.turn = .sequence (s.withInputs rest) ∧ (s.inputs = .pass :: rest ∨ s.inputs = rest)) := by
  unfold State.turn
  split
  · next h => exact .inr ⟨[], by simp [State.withInputs, ← h], .inr h⟩
  · next rest h => exact .inr ⟨rest, rfl, .inl h⟩
  · next i rest h => exact .inl ⟨i, rest, rfl, .inl h⟩
  · next i rest h =>
    split
    · next hi => exact .inl ⟨i, rest, rfl, .inr ⟨h, hi⟩⟩
    · exact .inr ⟨.call i :: rest, by simp [State.withInputs, ← h], .inr h⟩

/-- What a step can do: run a call, or take a sequencer step. -/
theorem step_cases (s : State) :
    (∃ i rest, s.turn = .run i (s.withInputs rest) ∧ step s = exec i (s.withInputs rest) ∧
      ((s.inputs = .overlap i :: rest) ∨ (s.inputs = .call i :: rest ∧ s.idle = true))) ∨
    (∃ rest, s.turn = .sequence (s.withInputs rest) ∧ step s = (s.withInputs rest).sequence ∧
      (s.inputs = .pass :: rest ∨ s.inputs = rest)) := by
  rcases turn_cases s with ⟨i, rest, ht, hi⟩ | ⟨rest, ht, hi⟩
  · exact .inl ⟨i, rest, ht, by simp [step, ht], hi⟩
  · exact .inr ⟨rest, ht, by simp [step, ht], hi⟩

/-- With nothing cutting in and something to do, a step is the sequencer's; the owner's call waits (R45). -/
theorem step_of_undisturbed {s : State} (h : s.undisturbed) (hb : s.idle = false) : step s = s.sequence := by
  rcases h with h | ⟨i, rest, h⟩ <;> simp [step, State.turn, h, hb]

/-- A run continued by one more step. -/
theorem steps_succ {n : Nat} {s t : State} (h : steps n s = .next t) : steps (n + 1) s = step t := by
  induction n generalizing s with
  | zero =>
    simp only [steps, Host.Outcome.next.injEq] at h
    subst h
    simp only [steps]
    split <;> simp_all
  | succ n ih =>
    rw [steps] at h ⊢
    cases hx : step s with
    | next x => simp only [hx] at h ⊢; exact ih h
    | fault f => simp [hx] at h
    | refused r => simp [hx] at h

/-- With actions pending and nothing cutting in, the machine performs all of the first ones, one a step (R26, R27). -/
theorem steps_perform (s : State) (as rest : List Action) (hi : s.undisturbed) (hp : s.pending = as ++ rest)
    (hf : performable s.lines as = true) : steps as.length s = .next (s.perform as rest) := by
  induction as generalizing s with
  | nil => cases s; simp_all [steps, State.perform]
  | cons a as ih =>
    simp only [performable, Bool.and_eq_true, Option.isNone_iff_eq_none] at hf
    have hs : step s = .next (s.emit a (as ++ rest)) := by
      rw [step_of_undisturbed hi (by simp [State.idle, hp]), State.sequence, hp]; simp [hf.1]
    rw [List.length_cons, steps, hs]
    exact (ih (s.emit a (as ++ rest)) hi rfl hf.2).trans (by simp [State.perform, State.emit])

/-- With actions pending and nothing cutting in, the machine performs all of them, one a step (R26, R27). -/
theorem steps_perform_pending (s : State) (hi : s.undisturbed) (hp : performable s.lines s.pending = true) :
    steps s.pending.length s = .next (s.perform s.pending []) :=
  steps_perform s s.pending [] hi (by simp) hp

/-- One step more makes a constructing or running instance `Ready` (R25, R27). -/
theorem steps_settle (s : State) (hi : s.undisturbed) (hp : performable s.lines s.pending = true)
    (hph : s.phase = .constructing ∨ ∃ op, s.phase = .running op) :
    steps (s.pending.length + 1) s = .next s.settle := by
  rw [steps_succ (steps_perform_pending s hi hp),
    step_of_undisturbed (s := s.perform s.pending []) hi (by rcases hph with h | ⟨op, h⟩ <;> simp [State.idle, h])]
  rcases hph with h | ⟨op, h⟩ <;> simp [State.sequence, h, State.settle, State.becomeReady, State.perform]

end Sys2Proof.Machine
end

