-- ==== Sys2Proof/Tests/Fixtures.lean ====
section
/-! SUPPORT. Small configurations and states that the tests and the witnesses share. -/

namespace Sys2Proof.Tests

open Sys2Proof Sys2Proof.Machine

/-- The reference configuration of R114 with cursor and blink on, in each mode (L1-7). -/
def eight : Config := ⟨.eightLine, 8, true, true, .reference⟩
def four : Config := ⟨.fourLine, 4, true, true, .reference⟩

/-- An instance at construction entry, one after its initialization, and one after `drop`. -/
def entry (cfg : Config) : State := State.reset.construct cfg
def idle (cfg : Config) : State := (entry cfg).settle
def dropped (cfg : Config) : State := (idle cfg).becomeDropped

/-- The state an outcome goes on with. -/
def next? : Host.Outcome State Fault Refusal → Option State
  | .next s => some s
  | .fault _ => none
  | .refused _ => none

/-- The latch log and the data lines once a call is completed, for a call made on an idle instance. -/
def logAfter (o : Host.Outcome State Fault Refusal) (before : State) : Option (List LatchEntry) :=
  (next? o).map fun t => t.settle.latchLog.drop before.latchLog.length

end Sys2Proof.Tests
end

