-- ==== Sys2Proof/Tests/Slice0.lean ====
section
/-! SUPPORT. Small tests. Expected results come from spec/95_test_vectors.md (named in each comment) or from the rule
named. The witnesses of the statements are in Sys2Proof/Tests/Witnesses.lean. -/

namespace Sys2Proof.Tests

open Sys2Proof Sys2Proof.Machine

/-! ### WellFormed -/

theorem test_wf_refuses_wide_code : Instr.wf (.writeChar 0x100) = false := by decide
theorem test_wf_refuses_wide_code_in_string : Instr.wf (.writeStr [0x41, 0x1F600]) = false := by decide
theorem test_wf_refuses_line_count : Instr.wf (.new { eight with lineCount := 4 }) = false := by decide
theorem test_wf_refuses_short_pulse : Instr.wf (.new { eight with delays := { DelayTable.reference with tPw := 449 } }) = false := by
  decide
theorem test_wf_refuses_short_clear : Instr.wf (.new { four with delays := { DelayTable.reference with tClr := 100000 } }) = false := by
  decide
theorem test_wf_refuses_long_wait : Instr.wf (.new { eight with delays := { DelayTable.reference with tPor := 255000001 } }) = false := by
  decide
theorem test_wf_refuses_each_short_delay :
    ([{ DelayTable.lowerBounds with tPor := 14999999 }, { DelayTable.lowerBounds with tFs1 := 4099999 },
      { DelayTable.lowerBounds with tInit := 99999 }, { DelayTable.lowerBounds with tCmd := 49999 },
      { DelayTable.lowerBounds with tData := 99999 }, { DelayTable.lowerBounds with tPl := 549 }] : List DelayTable).all
      (fun T => !T.wf) = true := by decide
theorem test_wf_accepts_bounds : Instr.wf (.new { eight with delays := .lowerBounds }) = true := by decide

/-! ### Decoding: words written out from R51, R52 and R55 (L2-G) -/

theorem test_decode_write_char : decodeBus 0b1_0100_0001 = .ok (.writeChar 0x41) := by decide
theorem test_decode_write_char_not_clear : decodeBus 0b1_0000_0001 = .ok (.writeChar 0x01) := by decide
theorem test_decode_set_cursor_pos : decodeBus 0b0_1100_1000 = .ok (.setCursorPos 72) := by decide
theorem test_decode_function_set_eight : decodeBus 0b0_0011_1000 = .ok (.functionSet .eightLine) := by decide
theorem test_decode_function_set_four : decodeBus 0b0_0010_1000 = .ok (.functionSet .fourLine) := by decide
theorem test_decode_shift_display : decodeBus 0b0_0001_1100 = .ok (.shiftDisplay .right) := by decide
theorem test_decode_shift_cursor : decodeBus 0b0_0001_0000 = .ok (.shiftCursor .left) := by decide
theorem test_decode_set_display_mode : decodeBus 0b0_0000_1110 = .ok (.setDisplayMode true true false) := by decide
theorem test_decode_entry_mode_set : decodeBus 0b0_0000_0110 = .ok .entryModeSet := by decide
theorem test_decode_reset : decodeBus 0b0_0000_0010 = .ok .reset := by decide
theorem test_decode_clear : decodeBus 0b0_0000_0001 = .ok .clear := by decide
theorem test_decode_function_set_raw : decodeNib 0b0_0010 = .ok .functionSetRaw := by decide
theorem test_decode_cgram_not_emitted : decodeBus 0b0_0100_0000 = .error .notEmitted := by decide
theorem test_decode_bytes : decode [0xC8, 0x00] = .ok (.setCursorPos 72) ∧ decode [0x48, 0x01] = .ok (.writeChar 0x48) ∧
    decode [0x02] = .ok .functionSetRaw ∧ decode [0x01, 0x02] = .error .strayBits ∧ decode [] = .error .badLength := by decide
theorem test_decode_table_word : decodeTableWord 16 0x028 = some (.functionSet .fourLine) ∧
    decodeTableWord 8 0x02 = some .functionSetRaw ∧ decodeTableWord 16 0x006 = some .entryModeSet := by decide
/-- P1: the words of `write_str` and of the constructor; `drop` has none (R111). -/
theorem test_encode_sequences : encode .eightLine (.writeStr [0x4F, 0x4B]) = [.bus 0x14F, .bus 0x14B] ∧
    encode .eightLine (.new eight) = [.bus 0x038, .bus 0x038, .bus 0x00F, .bus 0x001, .bus 0x006] ∧
    encode .fourLine (.new four) = [.nib 0x2, .bus 0x028, .bus 0x00F, .bus 0x001, .bus 0x006] ∧
    encode .fourLine .drop = [] := by decide

/-! ### One operation each -/

/-- L1-4: the full 19 events of `write_char(0xA5)` in `FourLine`. -/
theorem test_write_char_events : (next? (exec (.writeChar 0xA5) (idle four))).map (·.pending) = some
    [.drive .rs true,
     .drive (.d 0) false, .drive (.d 1) true, .drive (.d 2) false, .drive (.d 3) true,
     .drive .en true, .wait 1000, .drive .en false, .wait 1000,
     .drive (.d 0) true, .drive (.d 1) false, .drive (.d 2) true, .drive (.d 3) false,
     .drive .en true, .wait 1000, .drive .en false, .wait 1000,
     .drive .rs false, .wait 100000] := by decide
/-- L2-C. -/
theorem test_write_char_log : logAfter (exec (.writeChar 0x01) (idle eight)) (idle eight) = some [.word true 0x01] := by
  decide
/-- L1-6: the 14 events of `clear()` in `EightLine`. -/
theorem test_clear_events : (next? (exec .clear (idle eight))).map (·.pending) = some
    [.drive .rs false,
     .drive (.d 0) true, .drive (.d 1) false, .drive (.d 2) false, .drive (.d 3) false,
     .drive (.d 4) false, .drive (.d 5) false, .drive (.d 6) false, .drive (.d 7) false,
     .drive .en true, .wait 1000, .drive .en false, .wait 1000, .wait 2000000] := by decide
/-- L2-B. -/
theorem test_clear_log : logAfter (exec .clear (idle four)) (idle four) = some [.word false 0x0, .word false 0x1] := by
  decide
theorem test_reset_log : logAfter (exec .reset (idle four)) (idle four) = some [.word false 0x0, .word false 0x2] := by
  decide
theorem test_set_display_mode_log :
    logAfter (exec (.setDisplayMode false true false) (idle eight)) (idle eight) = some [.word false 0x0A] := by
  decide
theorem test_set_cursor_pos_masks :
    logAfter (exec (.setCursorPos 200) (idle four)) (idle four) = some [.word false 0xC, .word false 0x8] := by
  decide
theorem test_shift_cursor_log :
    logAfter (exec (.shiftCursor .right) (idle eight)) (idle eight) = some [.word false 0x14] := by decide
theorem test_shift_display_log :
    logAfter (exec (.shiftDisplay .right) (idle four)) (idle four) = some [.word false 0x1, .word false 0xC] := by
  decide
/-- L1-5: RS goes low between the characters. -/
theorem test_write_str_log : logAfter (exec (.writeStr [0x41, 0x42]) (idle four)) (idle four) =
    some [.word true 0x4, .word true 0x1, .word true 0x4, .word true 0x2] := by decide
theorem test_write_str_rs : (next? (exec (.writeStr [0x41, 0x42]) (idle eight))).map
    (fun t => (t.pending.length, t.pending.filter (fun a => a = .drive .rs true || a = .drive .rs false))) =
    some (30, [.drive .rs true, .drive .rs false, .drive .rs true, .drive .rs false]) := by decide
/-- L2-A, first 12 events in `FourLine`. -/
theorem test_new_first_events : (next? (exec (.new four) State.reset)).map (·.pending.take 12) = some
    [.drive .rs false, .drive .en false, .wait 15000000,
     .drive (.d 0) false, .drive (.d 1) true, .drive (.d 2) false, .drive (.d 3) false,
     .drive .en true, .wait 1000, .drive .en false, .wait 1000, .wait 4100000] := by decide
/-- L1-7 and L2-A. -/
theorem test_new_log : (idle eight).latchLog =
      [.word false 0x38, .word false 0x38, .word false 0x0F, .word false 0x01, .word false 0x06] ∧
    (idle four).latchLog = [.word false 0x2, .word false 0x2, .word false 0x8, .word false 0x0, .word false 0xF,
      .word false 0x0, .word false 0x1, .word false 0x0, .word false 0x6] ∧
    (idle eight).lines.data = [.low, .high, .high, .low, .low, .low, .low, .low] := by decide
/-- P5. -/
theorem test_drop : (next? (exec .drop (idle eight))).map (fun t => (t.phase, t.trace.length)) = some (.dropped, 72) := by
  decide
/-- R80, L1-7: step 4 in `FourLine` latches `0x2`, `0x8`; an idle block sends none. -/
theorem test_function_set_log :
    (next? (exec (.functionSet .fourLine) ((entry four).stage (.functionSet .fourLine)))).map (·.latchLog) =
      some [.word false 0x2, .word false 0x2, .word false 0x8] ∧
    (match exec (.functionSet .fourLine) (idle four) with | .refused .notEmitted => true | _ => false) = true := by decide
/-- R64: the 8 events of step 2 in `FourLine`; R65: step 3's wait comes next. -/
theorem test_function_set_raw_events :
    (next? (exec .functionSetRaw ((entry four).stage .functionSetRaw))).map (fun t => (t.trace.drop 3, t.pending.head?)) = some
      ([.drive (.d 0) false, .drive (.d 1) true, .drive (.d 2) false, .drive (.d 3) false,
        .drive .en true, .wait 1000, .drive .en false, .wait 1000], some (.wait 4100000)) := by decide
/-- R41: an idle block sends no lone nibble. -/
theorem test_function_set_raw_not_after_initialization :
    (match exec .functionSetRaw (idle four) with | .refused .notEmitted => true | _ => false) = true := by decide
/-- R81, L1-7: step 7 in `FourLine` latches `0x0`, `0x6` and leaves nothing pending; an idle block sends none. -/
theorem test_entry_mode_set_log :
    (next? (exec .entryModeSet ((entry four).stage .entryModeSet))).map (fun t => (t.latchLog.drop 7, t.pending)) =
      some ([.word false 0x0, .word false 0x6], []) ∧
    (match exec .entryModeSet (idle four) with | .refused .notEmitted => true | _ => false) = true := by decide

/-! ### Refusals (L2-F) and waits (L2-E) -/

theorem test_refuse_wide_code : (next? (exec (.writeStr [0x41, 0x1F600]) (idle eight))).map
    (fun t => (t.refusals, t.pending)) = some ([.codeTooWide], []) := by decide
theorem test_refuse_config : (next? (exec (.new { eight with lineCount := 4 }) (idle eight))).map (·.refusals) =
    some [.configIllFormed] := by decide
theorem test_refuse_busy : (next? (exec .clear ((idle eight).begin .writeStr []))).map (·.refusals) = some [.notReady] := by
  decide
theorem test_refuse_dropped : (next? (exec .clear (dropped eight))).map (fun t => (t.refusals, t.trace.length)) =
    some ([.dropped], 72) := by decide
/-- R99: the first row that applies is reported. -/
theorem test_refuse_precedence : (next? (exec (.writeChar 0x100) (dropped eight))).map (·.refusals) = some [.dropped] := by
  decide
theorem test_realise : realise 450 = some (.microseconds 1) ∧ realise 1001 = some (.microseconds 2) ∧
    realise 15000000 = some (.microseconds 15000) ∧ realise 65535000 = some (.microseconds 65535) ∧
    realise 65535001 = some (.milliseconds 66) ∧ realise 255000000 = some (.milliseconds 255) ∧
    realise 255000001 = none := by decide
/-- L2-A: lower-bound times of initialization. -/
theorem test_least_times : minTime (initSeq { eight with delays := .lowerBounds }) = 20925000 ∧
    minTime (initSeq { four with delays := .lowerBounds }) = 20929000 := by decide

/-! ### The step -/

theorem test_step_from_reset : (next? (step State.reset)).map (fun t => (t.trace, t.lines.rs, t.pending.length)) =
    some ([.drive .rs false], .low, 83) := by decide
theorem test_fetch_word_runs : (next? (step (State.reset.withFetchWord 16 0x01C))).map (·.phase) =
    some (.running .shiftDisplay) := by decide
/-- A fetched function-set runs in an instance of the mode its width bit names: step 4's entry is `(0, 0x38)` (R66). -/
theorem test_fetch_function_set_runs : (next? (step (State.reset.withFetchWord 16 0x038))).map (·.latchLog) =
    some [.word false 0x38, .word false 0x38] := by decide
/-- The fetched raw write is initialization step 2: its latch-log entry is `(0, 0x2)` (R64). -/
theorem test_fetch_raw_word_runs : (next? (step (State.reset.withFetchWord 8 0x02))).map (·.latchLog) =
    some [.word false 0x2] := by decide
theorem test_init_state_at_reset : State.reset.initState = some 0 := by decide
/-- U2: an enable pulse over lines never driven is a fault, not a value. -/
theorem test_undefined_latch_faults :
    (match State.sequence { State.reset with pending := [.drive .en true] } with
      | .fault .latchUndefined => true | _ => false) = true := by decide

end Sys2Proof.Tests
end

