-- ==== Sys2Proof/Tests/Witnesses.lean ====
section
/-! SUPPORT. One witness for each statement that has hypotheses: a concrete state and operands that meet all of them. -/

namespace Sys2Proof.Tests

open Sys2Proof Sys2Proof.Machine

theorem eight_wf : eight.wf = true := by decide
theorem four_wf : four.wf = true := by decide

theorem entry_inv (cfg : Config) (h : cfg.wf = true) : (entry cfg).Inv :=
  ⟨h, rfl, by simp [entry], by simp [entry], ⟨[], by simp, by simp [expansions, entry]⟩⟩

theorem idle_inv (cfg : Config) (h : cfg.wf = true) : (idle cfg).Inv :=
  ⟨h, rfl, fun _ => rfl, fun hp => by simp [idle, entry, State.settle] at hp,
    ⟨[], by simp, by simp [expansions, idle, entry]⟩⟩

theorem idle_api (cfg : Config) (h : cfg.wf = true) : (idle cfg).ApiInv :=
  ⟨idle_inv cfg h, rfl⟩

/-- For the statements about an idle instance: SetDisplayModeSendsItsByte, ShiftCommandsSendTheirBytes,
SetCursorPosMasksThePosition, LongCommandsSendTheirBytes, WriteCharSendsItsCode,
WriteStrSendsItsCodesInOrder, DropEndsTheInstance. -/
theorem test_witness_idle : (idle eight).phase = .ready ∧ (idle eight).pending = [] ∧
    (idle four).phase = .ready ∧ (idle four).pending = [] := by decide
/-- FunctionSetRawIsStepTwo, in each mode, with nothing to come and with a call that waits; the idle block is above. -/
theorem test_witness_FunctionSetRawIsStepTwo :
    ((entry four).stage .functionSetRaw).phase = .constructing ∧
    ((entry four).stage .functionSetRaw).pending = ((initSteps ((entry four).stage .functionSetRaw).cfg).drop 2).flatten ∧
    ((entry four).stage .functionSetRaw).lines.rs = .low ∧ ((entry four).stage .functionSetRaw).lines.data.length = 4 ∧
    ((entry eight).stage .functionSetRaw).lines.rs = .low ∧ ((entry eight).stage .functionSetRaw).lines.data.length = 8 ∧
    ((entry four).stage .functionSetRaw).undisturbed ∧ (((entry four).stage .functionSetRaw).withInputs [.call .clear]).undisturbed ∧
    four.wf = true :=
  ⟨rfl, rfl, rfl, rfl, rfl, rfl, .inl rfl, .inr ⟨.clear, [], rfl⟩, four_wf⟩
/-- InitializationCommandsSendTheirWords: an instance at step 4 and one at step 7, in each mode. -/
theorem test_witness_InitializationCommandsSendTheirWords :
    ((entry four).stage (.functionSet .fourLine)).phase = .constructing ∧
    ((entry four).stage (.functionSet .fourLine)).pending = ((initSteps four).drop 4).flatten ∧
    ((entry four).stage (.functionSet .fourLine)).cfg = four ∧
    ((entry four).stage (.functionSet .fourLine)).lines.data.length = 4 ∧
    ((entry four).stage (.functionSet .fourLine)).undisturbed ∧
    ((entry eight).stage .entryModeSet).phase = .constructing ∧
    ((entry eight).stage .entryModeSet).pending = ((initSteps eight).drop 7).flatten ∧
    ((entry eight).stage .entryModeSet).lines.data.length = 8 ∧ ((entry eight).stage .entryModeSet).undisturbed ∧
    eight.wf = true :=
  ⟨rfl, rfl, rfl, rfl, .inl rfl, rfl, rfl, rfl, .inl rfl, eight_wf⟩
/-- FunctionSetOfOtherModeRefused: an idle instance and one that is constructing. -/
theorem test_witness_FunctionSetOfOtherModeRefused : (entry four).phase = .constructing ∧ (idle four).phase = .ready ∧ (idle four).pending = [] ∧
    BusMode.eightLine ≠ (idle four).cfg.mode := by decide
/-- EncodedOperationsDecodeBack, with the widest code and with a string. -/
theorem test_witness_EncodedOperationsDecodeBack : Instr.wf (.writeChar 0xFF) = true ∧ Instr.wf (.writeStr [0x00, 0xFF]) = true ∧
    Instr.wf (.new four) = true := by decide
theorem test_witness_DecodedWordIsItsEncoding : decodeBus 0x0FF = .ok (.setCursorPos 0x7F) ∧
    decodeNib 0x02 = .ok .functionSetRaw := by decide
/-- NewMakesTheConstructionEntryState and PowerOnAndFunctionSetWaits: the lower bounds themselves are legal. -/
theorem test_witness_legal_configuration : Config.wf { eight with delays := .lowerBounds } = true ∧ four.wf = true := by decide
theorem test_witness_CommandCycleEvents : eight.mode = .eightLine ∧ four.mode = .fourLine := by decide
theorem test_witness_EightLineByteIsOneCycle : (Lines.unknown 8).data.length = 8 := by decide
theorem test_witness_FourLineByteIsTwoCyclesHighFirst :
    (idle four).lines.data.length = 4 ∧ (idle four).lines.rs ≠ .unknown := by decide
/-- BusyAndDroppedRefuseEveryCall: the raw write at construction entry, where initialization stands before step 0, and a
function-set of the other mode at step 4. -/
theorem test_witness_BusyAndDroppedRefuseEveryCall_initialization :
    (entry four).phase = .constructing ∧ emittingStep .functionSetRaw = some 2 ∧
    (entry four).pending ≠ ((initSteps (entry four).cfg).drop 2).flatten ∧
    ((entry four).stage (.functionSet .fourLine)).pending = ((initSteps four).drop 4).flatten ∧
    BusMode.eightLine ≠ ((entry four).stage (.functionSet .fourLine)).cfg.mode := by decide
/-- BusyAndDroppedRefuseEveryCall: one state for each clause. -/
theorem test_witness_BusyAndDroppedRefuseEveryCall : (∀ cfg, Instr.drop ≠ .new cfg) ∧ (entry eight).phase = .constructing ∧
    ((idle eight).begin .clear []).phase = .running .clear ∧ (dropped eight).phase = .dropped ∧
    ({ idle eight with pending := [.wait 1] } : State).phase = .ready := by
  refine ⟨by simp, ?_⟩; decide
/-- WideCodeRefused: the least code that is too wide, alone and last in a string. -/
theorem test_witness_WideCodeRefused : (0xFF : Nat) < 0x100 ∧ (∃ c ∈ [0x41, 0x100], 0xFF < c) ∧
    (idle four).phase = .ready ∧ (idle four).pending = [] := by decide
/-- IllFormedConfigurationRefused: a wrong count, a delay one below its bound, one above 255 ms. -/
theorem test_witness_IllFormedConfigurationRefused :
    ({ eight with lineCount := 4 } : Config).lineCount ≠ eight.mode.lineCount ∧
    DelayTable.tClr { DelayTable.reference with tClr := 1519999 } < DelayTable.tClr .lowerBounds ∧
    255000000 < DelayTable.tPl { DelayTable.reference with tPl := 255000001 } := by decide
theorem test_witness_CallFrame : (∀ cfg, Instr.clear ≠ .new cfg) ∧
    exec .clear (dropped eight) = .next ((dropped eight).markRefused .dropped) := by
  refine ⟨by simp, rfl⟩
/-- CallFrame and the second clause of SettleWaitEndsEveryOperation: the raw write at initialization step 2. -/
theorem test_witness_CallFrame_raw : (∀ cfg, Instr.functionSetRaw ≠ .new cfg) ∧ four.wf = true ∧
    ∃ t, exec .functionSetRaw ((entry four).stage .functionSetRaw) = .next t ∧ t.trace ≠ ((entry four).stage .functionSetRaw).trace :=
  ⟨by simp, four_wf, _, rfl, by decide⟩
/-- StepRunsTheCalledOperation: an idle instance with a call to come, a busy one with an overlapping call, a word. -/
theorem test_witness_StepRunsTheCalledOperation :
    ((idle eight).withInputs [.call .clear]).inputs = [.call .clear] ∧
    ((idle eight).withInputs [.call .clear]).pending = [] ∧ ((idle eight).withInputs [.call .clear]).phase = .ready ∧
    ((entry eight).withInputs [.overlap .clear]).inputs = [.overlap .clear] ∧
    decodeTableWord 16 0x001 = some .clear ∧ decodeTableWord 8 0x02 = some .functionSetRaw := by decide
/-- StepPerformsTheNextAction: a wait, a drive of RS, and a rising EN over known lines. -/
theorem test_witness_StepPerformsTheNextAction :
    (entry eight).pending.head? = some (.drive .rs false) ∧ (entry eight).lines.has .rs = true ∧
    (entry eight).inputs = [] ∧ ({ idle four with pending := [.drive .en true] } : State).lines.known = true ∧
    ({ idle four with pending := [.wait 5] } : State).pending = [.wait 5] := by decide
/-- StepEndsTheOperation: with no input, with a call that waits, and with a `pass`. -/
theorem test_witness_StepEndsTheOperation : ((idle eight).begin .writeStr []).pending = [] ∧
    ((idle eight).begin .writeStr []).inputs = [] ∧
    (((idle eight).begin .writeStr []).withInputs [.call .clear]).inputs = [.call .clear] ∧
    ((dropped eight).withInputs [.pass]).inputs = [.pass] ∧
    (idle eight).phase = .ready ∧ (dropped eight).phase = .dropped := by decide
/-- TraceIsAppendOnly, ConfigurationAndDroppedAreFinal, EveryStepKeepsTheInvariant, EveryStepKeepsTheApiInvariant. -/
theorem test_witness_step_of_invariant : (idle eight).Inv ∧ (idle eight).ApiInv ∧
    step (idle eight) = .next (idle eight) ∧ (∀ cfg s', (idle eight).turn ≠ .run (.new cfg) s') :=
  ⟨idle_inv _ eight_wf, idle_api _ eight_wf, rfl, fun _ _ h => by simp [idle, entry, State.turn, State.reset, State.settle, State.construct] at h⟩
theorem test_witness_ConfigurationAndDroppedAreFinal : (dropped four).phase = .dropped ∧ (dropped four).pending = [] ∧
    step (dropped four) = .next (dropped four) := ⟨rfl, rfl, rfl⟩
/-- InvariantRulesOutFaults and the statements about every state with the invariant: BusIsStableDuringEveryPulse,
EveryPulseIsWhole, InstanceDrivesOnlyItsLines, LatchLogHasNoUndefinedEntry. -/
theorem test_witness_invariant : (entry four).Inv ∧ (idle four).Inv ∧ (idle four).ApiInv :=
  ⟨entry_inv _ four_wf, idle_inv _ four_wf, idle_api _ four_wf⟩
theorem test_witness_IdleLinesAreDriven : (idle four).Inv ∧ (idle four).phase = .ready := ⟨idle_inv _ four_wf, rfl⟩
theorem test_witness_InitializationStepsInOrder : (entry four).Inv ∧ (entry four).phase = .constructing ∧
    (entry four).pending ≠ [] := ⟨entry_inv _ four_wf, rfl, by decide⟩
theorem test_witness_SequencerCompletesWhatIsPending : (entry eight).Inv ∧ (entry eight).undisturbed ∧
    ((entry eight).withInputs [.call .clear]).undisturbed ∧ (entry eight).phase = .constructing :=
  ⟨entry_inv _ eight_wf, .inl rfl, .inr ⟨.clear, [], rfl⟩, rfl⟩
theorem test_witness_ConstructionCompletes : eight.wf = true ∧ State.reset.undisturbed ∧
    exec (.new eight) State.reset = .next (entry eight) := ⟨eight_wf, .inl rfl, rfl⟩
/-- OperationCompletesWithItsWords and OnlyDataWritesReachTheDataTarget. -/
theorem test_witness_OperationCompletesWithItsWords : (idle four).Inv ∧ (idle four).phase = .ready ∧
    (idle four).undisturbed ∧ runsWhenReady (.writeStr [0x48, 0xFF]) = true :=
  ⟨idle_inv _ four_wf, rfl, .inl rfl, by decide⟩
theorem test_witness_LastByteStaysOnTheLines : (idle eight).Inv ∧ (idle eight).phase = .ready ∧
    runsWhenReady (.setCursorPos 127) = true ∧
    encode (idle eight).cfg.mode (.setCursorPos 127) = [.bus 0x0FF] := ⟨idle_inv _ eight_wf, rfl, by decide, by decide⟩
/-- LatchLogReadsBackAsTheOperations and NibblesStayPaired. -/
theorem test_witness_LatchLogReadsBackAsTheOperations : (idle four).Inv ∧
    (idle four).phase = .ready ∧ (idle four).cfg.mode = .fourLine := ⟨idle_inv _ four_wf, rfl, rfl⟩
theorem test_witness_ApiWordsNeverReinitialize : Instr.isApi .clear = true ∧ (∀ cfg, Instr.clear ≠ .new cfg) ∧
    Instr.wf .clear = true ∧ WireWord.bus 0x001 ∈ encode .eightLine .clear ∧ decodeWire (.bus 0x001) = .ok .clear := by
  refine ⟨rfl, by simp, rfl, ?_⟩; decide
/-- TrafficIgnoresHistory: two idle instances that differ in what they did. -/
theorem test_witness_TrafficIgnoresHistory : (idle eight).cfg = ({ idle eight with trace := [] } : State).cfg ∧
    (idle eight).trace ≠ [] ∧ exec .clear (idle eight) = .next ((idle eight).begin .clear (expansion eight .clear)) ∧
    exec .clear { idle eight with trace := [] } =
      .next (({ idle eight with trace := [] } : State).begin .clear (expansion eight .clear)) :=
  ⟨rfl, by decide, rfl, rfl⟩
theorem test_witness_ElapsedTimeIsALowerBoundOnly : mayTakeAll [.drive .rs true, .wait 450] [0, 450] = true ∧
    ([.wait 450] : List Action) ≠ [] := by decide
/-- WaitIsOneSufficientDelayCall at its boundaries. -/
theorem test_witness_WaitIsOneSufficientDelayCall : (65535000 : Nat) ≤ 255000000 ∧ (255000000 : Nat) ≤ 255000000 ∧
    (255000000 : Nat) < 255000001 := by decide
/-- EveryWaitIsNamedAndRealised and SettleWaitEndsEveryOperation. -/
theorem test_witness_EveryWaitIsNamedAndRealised : eight.wf = true ∧ (∀ cfg', Instr.reset = .new cfg' → cfg' = eight) ∧
    Action.wait 2000000 ∈ expansion eight .reset ∧ Instr.reset ≠ .functionSetRaw := by
  refine ⟨eight_wf, by simp, ?_⟩; decide

end Sys2Proof.Tests
end

section
/-! SUPPORT and settlements for the family of spec/10_state.md: what a sequencer step answers, what keeps the invariant,
and what the invariant gives for the lines. The statements are settled at the end, each from these lemmas. -/

namespace Sys2Proof.Machine

/-! ### The sequencer's step, case by case -/

/-- With actions pending, the sequencer performs the next one if it can be performed (R27). -/
theorem sequence_of_pending {s : State} {a : Action} {rest : List Action} (hp : s.pending = a :: rest)
    (hf : a.fault s.lines = none) : s.sequence = .next (s.emit a rest) := by
  simp [State.sequence, hp, hf]

/-- With nothing pending, a busy phase becomes `Ready` (R25, R27). -/
theorem sequence_of_busy {s : State} (hp : s.pending = []) (hph : s.phase = .constructing ∨ ∃ op, s.phase = .running op) :
    s.sequence = .next s.becomeReady := by
  rcases hph with h | ⟨op, h⟩ <;> simp [State.sequence, hp, h]

/-- With nothing pending, `Ready` and `Dropped` have no step (R27; log 6). -/
theorem sequence_of_idle {s : State} (hp : s.pending = []) (hph : s.phase = .ready ∨ s.phase = .dropped) :
    s.sequence = .next s := by
  rcases hph with h | h <;> simp [State.sequence, hp, h]

/-- A drive of a line that is there, over a known bus where EN rises, can be performed (R24, U2); a wait always can. -/
theorem Action.fault_eq_none {a : Action} {L : Lines}
    (h : ∀ l b, a = .drive l b → L.has l = true ∧ (l = .en → b = true → L.known = true)) : a.fault L = none := by
  cases a with
  | wait t => rfl
  | drive l b =>
    obtain ⟨hl, hk⟩ := h l b rfl
    simpa [Action.fault, hl] using hk

/-- The state with a `pass` that is next used up; any other input is kept (log 3). -/
def State.passUsed (s : State) : State :=
  s.withInputs (match s.inputs with | .pass :: left => left | other => other)

/-- Where no call cuts in, and the owner's call, if it is next, has to wait, a step is the sequencer's (R27, R45). -/
theorem step_of_no_call {s : State} (ho : ∀ i left, s.inputs ≠ .overlap i :: left)
    (hc : s.idle = false ∨ ∀ i left, s.inputs ≠ .call i :: left) : step s = s.passUsed.sequence := by
  obtain ⟨cfg, lines, phase, pending, trace, refusals, inputs⟩ := s
  match inputs with
  | [] => rfl
  | .pass :: left => rfl
  | .overlap i :: left => exact absurd rfl (ho i left)
  | .call i :: left =>
    rcases hc with hc | hc
    · simp [step, State.turn, hc, State.passUsed, State.withInputs]
    · exact absurd rfl (hc i left)

/-! ### What a call answers -/

/-- The step of initialization that an operation has to itself is one of the eight (R61). -/
theorem initSteps_getElem?_of_emittingStep {i : Instr} {k : Nat} (cfg : Config) (h : emittingStep i = some k) :
    (initSteps cfg)[k]? = some (initStep cfg k) := by
  cases i <;> simp [emittingStep] at h <;> subst h <;> rfl

/-! ### What keeps the invariant -/

namespace State.Inv

variable {s : State}

/-- The invariant does not read the inputs. -/
theorem withInputs (h : s.Inv) (xs : List Input) : (s.withInputs xs).Inv :=
  ⟨h.configLegal, h.linesReplay, h.idleEmpty, h.constructingInit, h.history⟩

/-- The invariant does not read the refusal mark (R99). -/
theorem markRefused (h : s.Inv) (r : RefuseReason) : (s.markRefused r).Inv :=
  ⟨h.configLegal, h.linesReplay, h.idleEmpty, h.constructingInit, h.history⟩

/-- Performing the first pending actions moves them to the trace and onto the lines (R26 to R28). -/
theorem perform (h : s.Inv) {as rest : List Action} (hp : s.pending = as ++ rest) : (s.perform as rest).Inv where
  configLegal := h.configLegal
  linesReplay := by simp [applyAll_append, ← h.linesReplay]
  idleEmpty hph := (List.append_eq_nil_iff.mp (hp ▸ h.idleEmpty hph)).2
  constructingInit hph := by simpa [hp] using h.constructingInit hph
  history := by simpa [State.History, hp] using h.history

/-- One sequencer action is one action performed. -/
theorem emit (h : s.Inv) {a : Action} {rest : List Action} (hp : s.pending = a :: rest) : (s.emit a rest).Inv :=
  h.perform (as := [a]) hp

/-- With nothing pending the phase may become `Ready` (R25, R26). -/
theorem becomeReady (h : s.Inv) (hp : s.pending = []) : s.becomeReady.Inv :=
  ⟨h.configLegal, h.linesReplay, fun _ => hp, by simp, h.history⟩

/-- With nothing pending the phase may become `Dropped` (R26, R111). -/
theorem becomeDropped (h : s.Inv) (hp : s.pending = []) : s.becomeDropped.Inv :=
  ⟨h.configLegal, h.linesReplay, fun _ => hp, by simp, h.history⟩

/-- An accepted operation is one more in the history (R43, R45, R58). -/
theorem begin (h : s.Inv) {i : Instr} (op : OpName) (hr : runsWhenReady i = true) (hp : s.pending = []) :
    (s.begin op (expansion s.cfg i)).Inv where
  configLegal := h.configLegal
  linesReplay := h.linesReplay
  idleEmpty hph := by simp at hph
  constructingInit hph := by simp at hph
  history := by
    obtain ⟨ops, hops, htr⟩ := h.history
    refine ⟨ops ++ [i], ?_, ?_⟩
    · intro j hj
      rcases List.mem_append.mp hj with hj | hj
      · exact hops j hj
      · rw [List.mem_singleton.mp hj]
        exact ⟨hr, runsWhenReady_isApi hr⟩
    · rw [hp, List.append_nil] at htr
      simp [htr, expansions]

end State.Inv

/-- The state at construction entry of a legal configuration has the invariant, whatever was there before (R32). -/
theorem State.construct_inv (s : State) {cfg : Config} (h : cfg.wf = true) : (s.construct cfg).Inv where
  configLegal := h
  linesReplay := rfl
  idleEmpty hph := by simp at hph
  constructingInit _ := rfl
  history := ⟨[], by simp, by simp [expansions]⟩

/-- A sequencer step keeps the invariant (R27). -/
theorem sequence_keeps_inv {s t : State} (h : s.Inv) (hs : s.sequence = .next t) : t.Inv := by
  rcases sequence_cases hs with ⟨a, rest, hp, -, rfl⟩ | ⟨hp, -, rfl⟩ | ⟨-, -, rfl⟩
  · exact h.emit hp
  · exact h.becomeReady hp
  · exact h

/-- A call keeps the invariant, whatever the operation: a refusal, an accepted expansion, a new construction, the end, or a
step of initialization. -/
theorem exec_keeps_inv {i : Instr} {s t : State} (h : s.Inv) (hs : exec i s = .next t) : t.Inv := by
  rcases exec_cases hs with ⟨r, rfl⟩ | ⟨op, -, hr, -, hp, rfl⟩ | ⟨cfg, -, hw, rfl⟩ | ⟨-, -, hp, rfl⟩ |
    ⟨k, -, -, hp, rfl⟩
  · exact h.markRefused r
  · exact h.begin op hr hp
  · exact s.construct_inv hw
  · exact h.becomeDropped hp
  · exact h.perform hp

/-- A busy state that settles has performed what is pending and become `Ready` (R25, R26). -/
theorem State.settle_eq_of_busy {s : State} (hph : s.phase = .constructing ∨ ∃ op, s.phase = .running op) :
    s.settle = (s.perform s.pending []).becomeReady := by
  rcases hph with h | ⟨op, h⟩ <;> simp [State.settle, h, State.becomeReady, State.perform]

/-! ### What the invariant gives for the lines -/

namespace State.Inv

variable {s : State}

/-- What has been done and what is pending send, from the unknown lines of construction entry, the words of the
initialization and then those of whole operations of the API (R43, R45). -/
theorem sends (h : s.Inv) : ∃ ops : List Instr, (∀ i ∈ ops, runsWhenReady i = true ∧ i.isApi = true) ∧
    Sends s.cfg.mode (Lines.unknown s.cfg.lineCount) (s.trace ++ s.pending)
      (encode s.cfg.mode (.new s.cfg) ++ ops.flatMap (encode s.cfg.mode)) := by
  obtain ⟨ops, hops, htr⟩ := h.history
  have hinit := initSeq_sends s.cfg s.cfg.lineCount (wf_lineCount h.configLegal)
  exact ⟨ops, hops, htr ▸ hinit.append (expansions_sends (fun i hi => (hops i hi).1) hinit.driven)⟩

/-- The data lines are as many as the mode has (R23). -/
theorem lineCount (h : s.Inv) : s.lines.data.length = s.cfg.mode.lineCount := by
  rw [h.linesReplay, applyAll_length, Lines.unknown, List.length_replicate, wf_lineCount h.configLegal]

/-- What is pending can be performed (R24, R91). -/
theorem pending_performable (h : s.Inv) : performable s.lines s.pending = true := by
  obtain ⟨ops, -, hs⟩ := h.sends
  have hall := hs.performed
  rw [performable_append, ← h.linesReplay, Bool.and_eq_true] at hall
  exact hall.2

/-- With nothing pending, the lines are those of a completed operation (R21 to R23). -/
theorem driven (h : s.Inv) (hp : s.pending = []) : s.lines.Driven s.cfg.mode.lineCount := by
  obtain ⟨ops, -, hs⟩ := h.sends
  have hd := hs.driven
  rwa [hp, List.append_nil, ← h.linesReplay] at hd

end State.Inv

/-- Actions that can be performed drive only lines that are there (R24, R107). -/
theorem ownLines_of_performable {L : Lines} {as : List Action} (h : performable L as = true) :
    ownLines L.data.length as = true := by
  induction as generalizing L with
  | nil => rfl
  | cons a as ih =>
    simp only [performable, Bool.and_eq_true, Option.isNone_iff_eq_none] at h
    obtain ⟨hf, hrest⟩ := h
    have htail := ih hrest
    rw [Action.apply_length] at htail
    refine Bool.and_eq_true_iff.mpr ⟨?_, htail⟩
    cases a with
    | wait t => rfl
    | drive l b =>
      cases l with
      | rs => rfl
      | en => rfl
      | d i => simpa [Action.fault, Lines.has] using hf

/-! ### The last byte on the lines -/

/-- An operation that runs on an idle block with one bus word is the command cycle of a command word or the data cycle of
a data word (R49, R52). -/
theorem expansion_of_one_word {cfg : Config} {m : BusMode} {i : Instr} {w : BusWord} (hr : runsWhenReady i = true)
    (he : encode m i = [.bus w]) :
    (∃ b t, w = commandWord b ∧ expansion cfg i = commandCycle cfg b t) ∨
    (∃ c, w = dataWord c ∧ expansion cfg i = dataCycle cfg (codeByte c)) := by
  have hcmd : ∀ {b b' : Byte} {t}, [WireWord.bus (commandWord b')] = [.bus w] → b = b' →
      expansion cfg i = commandCycle cfg b t →
      ∃ b t, w = commandWord b ∧ expansion cfg i = commandCycle cfg b t := by
    rintro b _ t hw rfl hx
    exact ⟨b, t, by simpa using hw.symm, hx⟩
  cases i with
  | writeChar c => exact .inr ⟨c, by simpa [encode] using he.symm, rfl⟩
  | writeStr cs =>
    obtain ⟨c, rfl, hc⟩ : ∃ c, cs = [c] ∧ WireWord.bus (dataWord c) = .bus w := by
      simpa [encode, List.map_eq_singleton_iff] using he
    exact .inr ⟨c, by simpa using hc.symm, by simp [expansion, stringCycles]⟩
  | setCursorPos pos => exact .inl (hcmd he (cursorPosByte_layout pos) rfl)
  | shiftDisplay dir => exact .inl (hcmd he (displayShiftByte_layout dir) rfl)
  | shiftCursor dir => exact .inl (hcmd he (cursorShiftByte_layout dir) rfl)
  | setDisplayMode on c b => exact .inl (hcmd he (displayControlByte_layout on c b) rfl)
  | reset => exact .inl (hcmd he rfl rfl)
  | clear => exact .inl (hcmd he rfl rfl)
  | functionSet | entryModeSet | functionSetRaw | new | drop => simp [runsWhenReady, opName] at hr

/-- The levels a transfer leaves, line by line: bit k of the byte on line k (R38, R39). -/
theorem lastLevels_eq_map (m : BusMode) (b : Byte) :
    lastLevels m b = (List.range m.lineCount).map (fun k => lvl (b.getLsbD k)) := by
  cases m with
  | eightLine => rfl
  | fourLine => simp [lastLevels, nibbleLevels, BusMode.lineCount, List.range_succ]

/-- A bus word carries its byte in bits 7:0 (R49), whatever its RS bit. -/
theorem lastLevels_eq_map_word (m : BusMode) (rs : BitVec 1) (b : Byte) :
    lastLevels m b = (List.range m.lineCount).map (fun k => lvl ((rs ++ b).getLsbD k)) := by
  rw [lastLevels_eq_map]
  refine List.map_congr_left fun k hk => ?_
  have hk8 : k < 8 := lt_of_lt_of_le (List.mem_range.mp hk) (by cases m <;> decide)
  rw [BitVec.getLsbD_append, if_pos hk8]

/-! ### The waits -/

/-- The eight delays of a configuration (R18). -/
def namedDelays (cfg : Config) : List Nat :=
  [cfg.delays.tPor, cfg.delays.tFs1, cfg.delays.tInit, cfg.delays.tClr, cfg.delays.tCmd, cfg.delays.tData,
    cfg.delays.tPw, cfg.delays.tPl]

/-- Every wait of these actions is one of the eight delays. -/
def WaitsNamed (cfg : Config) (as : List Action) : Prop := ∀ t, Action.wait t ∈ as → t ∈ namedDelays cfg

section
variable {cfg : Config}

@[simp] theorem waitsNamed_nil : WaitsNamed cfg [] := by simp [WaitsNamed]

@[simp] theorem waitsNamed_drive_cons {l : Line} {b : Bool} {as : List Action} :
    WaitsNamed cfg (.drive l b :: as) ↔ WaitsNamed cfg as := by
  simp [WaitsNamed]

@[simp] theorem waitsNamed_wait_cons {t : Nat} {as : List Action} :
    WaitsNamed cfg (.wait t :: as) ↔ t ∈ namedDelays cfg ∧ WaitsNamed cfg as := by
  simp [WaitsNamed, or_imp, forall_and]

@[simp] theorem waitsNamed_append {as bs : List Action} :
    WaitsNamed cfg (as ++ bs) ↔ WaitsNamed cfg as ∧ WaitsNamed cfg bs := by
  simp [WaitsNamed, or_imp, forall_and]

@[simp] theorem driveByte_waitsNamed (b : Byte) : WaitsNamed cfg (driveByte b) := by simp [driveByte]

@[simp] theorem driveNibble_waitsNamed (v : BitVec 4) : WaitsNamed cfg (driveNibble v) := by simp [driveNibble]

@[simp] theorem pulse_waitsNamed : WaitsNamed cfg (pulse cfg.delays) := by simp [pulse, namedDelays]

@[simp] theorem transfer_waitsNamed (m : BusMode) (b : Byte) : WaitsNamed cfg (transfer m cfg.delays b) := by
  cases m <;> simp [transfer]

theorem rawFunctionSet_waitsNamed : WaitsNamed cfg (rawFunctionSet cfg) := by
  unfold rawFunctionSet
  split <;> simp

@[simp] theorem commandCycle_waitsNamed {t : Nat} {b : Byte} :
    WaitsNamed cfg (commandCycle cfg b t) ↔ t ∈ namedDelays cfg := by
  simp [commandCycle]

theorem dataCycle_waitsNamed (c : Byte) : WaitsNamed cfg (dataCycle cfg c) := by
  simp [dataCycle, namedDelays]

theorem stringCycles_waitsNamed (cs : List Nat) : WaitsNamed cfg (stringCycles cfg cs) := by
  induction cs with
  | nil => simp [stringCycles]
  | cons c cs ih => simp [stringCycles, dataCycle_waitsNamed, ih]

theorem initSeq_waitsNamed : WaitsNamed cfg (initSeq cfg) := by
  simp [initSeq, initSteps, rawFunctionSet_waitsNamed, namedDelays]

/-- Every wait of every operation is one of the eight delays (R18, R114). -/
theorem expansion_waitsNamed {i : Instr} (hi : ∀ cfg', i = .new cfg' → cfg' = cfg) :
    WaitsNamed cfg (expansion cfg i) := by
  cases i with
  | writeChar c => exact dataCycle_waitsNamed _
  | writeStr cs => exact stringCycles_waitsNamed cs
  | functionSetRaw => exact rawFunctionSet_waitsNamed
  | new cfg' => exact hi cfg' rfl ▸ initSeq_waitsNamed
  | drop => exact waitsNamed_nil
  | setCursorPos | functionSet | shiftDisplay | shiftCursor | setDisplayMode | entryModeSet | reset | clear =>
    exact commandCycle_waitsNamed.mpr (by simp [namedDelays])

end

/-- A legal configuration keeps each delay within the longest wait (R19). -/
theorem namedDelays_le {cfg : Config} {t : Nat} (h : cfg.wf = true) (ht : t ∈ namedDelays cfg) : t ≤ 255000000 := by
  have hd := wf_delays h
  simp only [namedDelays, List.mem_cons, List.not_mem_nil, or_false] at ht
  omega

/-- A wait of at most 255 ms has its delay-provider call (R95). -/
theorem realise_isSome {t : Nat} (h : t ≤ 255000000) : (realise t).isSome = true := by
  unfold realise
  split
  · rfl
  · have : ceilDiv t 1000000 ≤ 255 := by unfold ceilDiv; omega
    rw [if_pos this]; rfl

/-- A call is missing exactly where a wait is too long to be realised (R95). -/
theorem none_mem_delayCalls {as : List Action} : none ∈ delayCalls as ↔ ∃ t, Action.wait t ∈ as ∧ realise t = none := by
  induction as with
  | nil => simp [delayCalls]
  | cons a as ih => cases a <;> simp [delayCalls, ih, eq_comm]

/-- There are as many calls as waits (R95). -/
theorem delayCalls_length (as : List Action) : (delayCalls as).length =
    (as.filter (fun a => match a with | .wait _ => true | .drive _ _ => false)).length := by
  induction as with
  | nil => rfl
  | cons a as ih => cases a <;> simp [delayCalls, ih]

/-! ### The initialization sequence -/

/-- How many actions initialization has in each mode (R70). -/
theorem initSeq_length (cfg : Config) : (initSeq cfg).length = cfg.mode.pick 72 84 := by
  cases hm : cfg.mode <;>
    simp [initSeq, initSteps, rawFunctionSet, commandCycle, transfer, driveByte, driveNibble, pulse, hm, BusMode.pick]

/-- The latch-log entries of the constructor's words (R70). -/
theorem logOfWords_new (cfg : Config) : logOfWords cfg.mode (encode cfg.mode (.new cfg)) = cfg.mode.pick
    [.word false 0x38, .word false 0x38, .word false (0x0C + 2 * cfg.initCursor.toNat + cfg.initBlink.toNat),
      .word false 0x01, .word false 0x06]
    [.word false 0x2, .word false 0x2, .word false 0x8, .word false 0x0,
      .word false (0xC + 2 * cfg.initCursor.toNat + cfg.initBlink.toNat), .word false 0x0, .word false 0x1,
      .word false 0x0, .word false 0x6] := by
  obtain ⟨m, n, c, b, T⟩ := cfg
  simp only [encode]
  cases m <;> (revert c b; decide)

/-! ### The statements of the family -/

/-- Settles O31: a step is a call or a sequencer step, and each of them keeps the invariant. -/
theorem everyStepKeepsTheInvariant : Obligations.EveryStepKeepsTheInvariant := by
  intro s t h hs
  rcases step_cases s with ⟨i, rest, -, he, -⟩ | ⟨rest, -, he, -⟩ <;> rw [he] at hs
  · exact exec_keeps_inv (h.withInputs rest) hs
  · exact sequence_keeps_inv (h.withInputs rest) hs

/-- Settles O22: each ground of the premise contradicts `Config.wf`, which is the constructor's check. -/
theorem illFormedConfigurationRefused : Obligations.IllFormedConfigurationRefused := by
  intro s cfg h
  have hw : configAccepted cfg = false := by
    rw [configAccepted_eq_wf, Bool.eq_false_iff]
    intro hw
    rcases h with hn | ⟨f, hf, ht⟩
    · exact hn (wf_lineCount hw)
    · have hd := wf_delays hw
      simp only [List.mem_cons, List.not_mem_nil, or_false] at hf
      rcases hf with rfl | rfl | rfl | rfl | rfl | rfl | rfl | rfl <;> simp only [DelayTable.lowerBounds] at ht <;> omega
  simp [exec, execNew, hw, State.markRefused]

/-- Settles O23: of the answers `exec_cases` lists, only a step of initialization changes the lines or the trace. -/
theorem callFrame : Obligations.CallFrame := by
  intro s t i hn h
  rcases exec_cases h with ⟨r, rfl⟩ | ⟨op, -, -, -, -, rfl⟩ | ⟨cfg, hi, -⟩ | ⟨-, -, -, rfl⟩ | ⟨k, hk, -, hp, rfl⟩
  · exact ⟨rfl, rfl, .inl ⟨rfl, rfl⟩, .inr ⟨r, rfl⟩⟩
  · exact ⟨rfl, rfl, .inl ⟨rfl, rfl⟩, .inl rfl⟩
  · exact absurd hi (hn cfg)
  · exact ⟨rfl, rfl, .inl ⟨rfl, rfl⟩, .inl rfl⟩
  · exact ⟨rfl, rfl, .inr ⟨rfl, rfl, k, _, hk, initSteps_getElem?_of_emittingStep s.cfg hk, hp, rfl, rfl⟩, .inl rfl⟩

/-- Settles O25: the step is the sequencer's, which emits the head of `pending`. -/
theorem stepPerformsTheNextAction : Obligations.StepPerformsTheNextAction := by
  intro s a rest hp ho ha
  have hs : step s = .next (s.passUsed.emit a rest) := by
    rw [step_of_no_call ho (.inl (by simp [State.idle, hp]))]
    exact sequence_of_pending (s := s.passUsed) hp (Action.fault_eq_none ha)
  refine ⟨_, hs, rfl, rfl, rfl, rfl, rfl, rfl, ?_, ?_⟩
  · rintro n rfl
    rfl
  · rintro l b rfl
    exact ⟨s.lines.level_set_self l _ (ha l b rfl).1, Action.apply_length _ _,
      fun l' hl => s.lines.level_set_other l l' _ hl⟩

/-- Settles O27: a call leaves the trace, starts a new one, or performs a step of initialization; a sequencer step
appends at most the next action. -/
theorem traceIsAppendOnly : Obligations.TraceIsAppendOnly := by
  intro s t h
  rcases step_cases s with ⟨i, rest, ht, he, -⟩ | ⟨rest, -, he, -⟩ <;> rw [he] at h
  · rcases exec_cases h with ⟨r, rfl⟩ | ⟨op, -, -, -, -, rfl⟩ | ⟨cfg, rfl, -, rfl⟩ | ⟨-, -, -, rfl⟩ |
      ⟨k, hk, -, hp, rfl⟩
    · exact .inr (.inl rfl)
    · exact .inr (.inl rfl)
    · exact .inl ⟨cfg, _, ht, .inl rfl⟩
    · exact .inr (.inl rfl)
    · exact .inr (.inr ⟨_, hp, rfl, .inr ⟨i, _, k, ht, hk, initSteps_getElem?_of_emittingStep s.cfg hk⟩⟩)
  · rcases sequence_cases h with ⟨a, left, hp, -, rfl⟩ | ⟨-, -, rfl⟩ | ⟨-, -, rfl⟩
    · exact .inr (.inr ⟨[a], hp, rfl, .inl rfl⟩)
    · exact .inr (.inl rfl)
    · exact .inr (.inl rfl)

/-- Settles O28: from `Dropped` with nothing pending, a call other than the constructor is refused and the sequencer has
no step. -/
theorem configurationAndDroppedAreFinal : Obligations.ConfigurationAndDroppedAreFinal := by
  intro s t h hn
  rcases step_cases s with ⟨i, rest, ht, he, -⟩ | ⟨rest, -, he, -⟩ <;> rw [he] at h
  · rcases exec_cases h with ⟨r, rfl⟩ | ⟨op, -, -, hph, -, rfl⟩ | ⟨cfg, rfl, -⟩ | ⟨-, hph, -, rfl⟩ |
      ⟨k, -, hph, -, rfl⟩
    · exact ⟨rfl, fun hd _ => ⟨hd, rfl, rfl⟩⟩
    · exact ⟨rfl, fun hd _ => by simp [hd] at hph⟩
    · exact absurd ht (hn cfg _)
    · exact ⟨rfl, fun hd _ => by simp [hd] at hph⟩
    · exact ⟨rfl, fun hd _ => by simp [hd] at hph⟩
  · rcases sequence_cases h with ⟨a, left, hp, -, rfl⟩ | ⟨-, hph, rfl⟩ | ⟨-, -, rfl⟩
    · exact ⟨rfl, fun _ he => by simp [he] at hp⟩
    · exact ⟨rfl, fun hd _ => by simp [hd] at hph⟩
    · exact ⟨rfl, fun hd _ => ⟨hd, rfl, rfl⟩⟩

/-- Settles O34: what an idle block has done are whole operations, and each leaves the lines driven. -/
theorem idleLinesAreDriven : Obligations.IdleLinesAreDriven := by
  intro s h hph
  obtain ⟨hrs, hen, hcount, hknown⟩ := h.driven (h.idleEmpty hph)
  exact ⟨hrs, hen, hcount, hknown⟩

/-- Settles O37: all that has been done and is pending can be performed on the lines of construction entry. -/
theorem instanceDrivesOnlyItsLines : Obligations.InstanceDrivesOnlyItsLines := by
  intro s h
  obtain ⟨ops, -, hs⟩ := h.sends
  have ho := ownLines_of_performable hs.performed
  rwa [Lines.unknown, List.length_replicate, wf_lineCount h.configLegal] at ho

/-- Settles O40: what is pending can be performed, so the sequencer gets to its end. -/
theorem sequencerCompletesWhatIsPending : Obligations.SequencerCompletesWhatIsPending := by
  intro s h hu hph
  have he := s.settle_eq_of_busy hph
  refine ⟨steps_settle s hu h.pending_performable hph, by rw [he]; rfl, rfl, ?_⟩
  rw [he]
  exact (h.perform (List.append_nil _).symm).becomeReady rfl

/-- Settles O41: construction entry has the invariant and the initialization sequence pending, so the sequencer completes
that (O40), which sends the constructor's words. -/
theorem constructionCompletes : Obligations.ConstructionCompletes := by
  intro s t cfg hw hu h
  obtain rfl : s.construct cfg = t := by simpa [exec, execNew, configAccepted_eq_wf, hw] using h
  obtain ⟨hsteps, hready, -, -⟩ :=
    sequencerCompletesWhatIsPending _ (s.construct_inv hw) (by exact hu) (.inl rfl)
  rw [State.construct_pending, initSeq_length] at hsteps
  have hl := initSeq_lines cfg cfg.lineCount (wf_lineCount hw)
  refine ⟨_, hsteps, hready, rfl, rfl, rfl, rfl, congrArg Lines.rs hl, congrArg Lines.en hl, ?_, ?_⟩
  · refine (congrArg Lines.data hl).trans ?_
    cases cfg.mode <;> rfl
  · exact (initSeq_sends cfg cfg.lineCount (wf_lineCount hw)).latched.trans (logOfWords_new cfg)

/-- Settles O45: an operation of one word is one cycle, and a cycle leaves its byte on the lines. -/
theorem lastByteStaysOnTheLines : Obligations.LastByteStaysOnTheLines := by
  intro s i w h hph hr he
  rcases expansion_of_one_word hr he with ⟨b, t, rfl, hx⟩ | ⟨c, rfl, hx⟩
  · rw [hx, (commandCycle_effect s.cfg b t _ _ _ h.lineCount).1]
    exact lastLevels_eq_map_word _ _ _
  · rw [hx, (dataCycle_effect s.cfg (codeByte c) _ _ _ h.lineCount).1]
    exact lastLevels_eq_map_word _ _ _

/-- Settles O53: each wait is a delay of the table, and a legal table keeps each within the longest wait. -/
theorem everyWaitIsNamedAndRealised : Obligations.EveryWaitIsNamedAndRealised := by
  intro cfg i hw hi
  have hnamed := expansion_waitsNamed hi
  refine ⟨hnamed, ?_, delayCalls_length _⟩
  rw [none_mem_delayCalls]
  rintro ⟨t, ht, hr⟩
  have := realise_isSome (namedDelays_le hw (hnamed t ht))
  simp [hr] at this

/-- Settles O10: with the other mode's width bit the operation is not the block's own, so it is never step 4. -/
theorem functionSetOfOtherModeRefused : Obligations.FunctionSetOfOtherModeRefused := by
  intro s width hw
  have he : exec (.functionSet width) s = initializationOnly 4 false s := by
    simp [exec, execFunctionSet, hw]
  rw [he]
  rcases initializationOnly_cases 4 false s with ⟨ho, -⟩ | ⟨-, r, ha, hs⟩ | ⟨-, ha, hs⟩
  · simp at ho
  · exact ⟨fun hr hp => by simp [s.acceptanceRefusal_none.mpr ⟨hr, hp⟩] at ha, fun _ => ⟨r, hs⟩⟩
  · exact ⟨fun _ _ => hs, fun hb => absurd (s.acceptanceRefusal_none.mp ha) hb⟩

/-- Settles O26: with no call to run, the step is the sequencer's. -/
theorem stepEndsTheOperation : Obligations.StepEndsTheOperation := by
  intro s hp ho
  refine ⟨fun hph => ?_, fun hph hc => ?_⟩
  · have hidle : s.idle = false := by rcases hph with h | ⟨op, h⟩ <;> simp [State.idle, h]
    rw [step_of_no_call ho (.inl hidle)]
    exact sequence_of_busy (s := s.passUsed) hp hph
  · rw [step_of_no_call ho (.inr hc)]
    exact sequence_of_idle (s := s.passUsed) hp hph

/-- Settles O29: reset is construction entry by definition, and its configuration is legal. -/
theorem resetIsConstructionEntry : Obligations.ResetIsConstructionEntry :=
  ⟨rfl, rfl, rfl, rfl, rfl, by decide⟩

/-- Settles O30: reset is a construction of its own configuration, and nobody has called yet. -/
theorem resetHasTheInvariant : Obligations.ResetHasTheInvariant := by
  have h : State.reset.Inv := State.reset.construct_inv (cfg := Config.atReset) (by decide)
  exact ⟨h, h, rfl⟩

end Sys2Proof.Machine
end

section
/-! SUPPORT and settlements for the family of spec/20_memory.md: the two bus targets, the transfers of a byte, what a call
on an idle block depends on, and the nibble pairs of `FourLine`. The statements are settled at the end, each from these
lemmas. -/

namespace Sys2Proof.Machine

/-! ### The target of a word -/

/-- RS of a word: the target it goes to, 1 for data and 0 for instructions (R34, R49, R50). -/
def wireRs : WireWord → Bool
  | .bus w => w.getLsbD 8
  | .nib w => w.getLsbD 4

/-- The operations that write the data target (R34). -/
def writesData : Instr → Bool
  | .writeChar _ => true
  | .writeStr _ => true
  | _ => false

/-- Each entry of a word is defined and has the word's RS (R50, R57). -/
theorem wireEntries_rs {m : BusMode} {w : WireWord} {e : LatchEntry} (h : e ∈ wireEntries m w) :
    ∃ v, e = .word (wireRs w) v := by
  cases w with
  | nib w => exact ⟨_, List.mem_singleton.mp h⟩
  | bus w =>
    cases m with
    | eightLine => exact ⟨_, List.mem_singleton.mp h⟩
    | fourLine =>
      rcases List.mem_pair.mp h with h | h
      · exact ⟨_, h⟩
      · exact ⟨_, h⟩

theorem mem_logOfWords {m : BusMode} {ws : List WireWord} {e : LatchEntry} :
    e ∈ logOfWords m ws ↔ ∃ w ∈ ws, e ∈ wireEntries m w := by
  induction ws with
  | nil => simp [logOfWords]
  | cons w ws ih => simp [logOfWords, ih]

@[simp] theorem wireRs_commandWord (b : Byte) : wireRs (.bus (commandWord b)) = false := by
  rw [wireRs, commandWord, BitVec.getLsbD_append]; rfl

@[simp] theorem wireRs_dataWord (c : Nat) : wireRs (.bus (dataWord c)) = true := by
  rw [wireRs, dataWord, BitVec.getLsbD_append]; rfl

@[simp] theorem wireRs_rawWord (m : BusMode) : wireRs (rawWord m) = false := by
  cases m <;> decide

/-- The words of an operation go to the data target exactly when it is `write_char` or `write_str` (R34, R51, R52). -/
theorem encode_rs {m : BusMode} {i : Instr} {w : WireWord} (h : w ∈ encode m i) : wireRs w = writesData i := by
  cases i with
  | writeChar c => rw [List.mem_singleton.mp h]; exact wireRs_dataWord c
  | writeStr cs =>
    obtain ⟨c, -, rfl⟩ := List.mem_map.mp h
    exact wireRs_dataWord c
  | new cfg =>
    simp only [encode, List.mem_cons, List.not_mem_nil, or_false] at h
    rcases h with rfl | rfl | rfl | rfl | rfl
    · exact wireRs_rawWord cfg.mode
    all_goals exact wireRs_commandWord _
  | drop => simp [encode] at h
  | functionSetRaw => rw [List.mem_singleton.mp h]; exact wireRs_rawWord m
  | setCursorPos | functionSet | shiftDisplay | shiftCursor | setDisplayMode | entryModeSet | reset | clear =>
    rw [List.mem_singleton.mp h]; exact wireRs_commandWord _

/-- Each entry of the words of an operation is defined, with RS 1 exactly for the data writes (R34). -/
theorem logOfWords_encode_rs {m : BusMode} {i : Instr} {e : LatchEntry} (h : e ∈ logOfWords m (encode m i)) :
    ∃ v, e = .word (writesData i) v := by
  obtain ⟨w, hw, he⟩ := mem_logOfWords.mp h
  exact encode_rs hw ▸ wireEntries_rs he

/-! ### The transfer of a byte -/

/-- Line k is left at bit k of the byte, for each line of the mode (R38, R39). -/
theorem lastLevels_getD {m : BusMode} {k : Nat} (b : Byte) (hk : k < m.lineCount) :
    (lastLevels m b).getD k .unknown = lvl (b.getLsbD k) := by
  simp [lastLevels_eq_map, List.getD, hk]

/-- A byte's drives are one for each line, bit k to line k (R38). -/
theorem driveByte_eq_map (b : Byte) : driveByte b = (List.range 8).map fun k => .drive (.d k) (b.getLsbD k) := rfl

/-- A transfer in `EightLine` leaves the byte on the data lines, whatever RS is (R38). -/
theorem transfer_eightLine_data (T : DelayTable) (b : Byte) (L : Lines) (hd : L.data.length = 8) :
    (applyAll L (transfer .eightLine T b)).data = lastLevels .eightLine b := by
  obtain ⟨rs, en, d⟩ := L
  obtain ⟨a0, a1, a2, a3, a4, a5, a6, a7, rfl⟩ := eight_levels d hd
  rfl

/-- In `FourLine` the entries of a transfer are the byte's quotient and remainder by 16 (R39, R88). -/
theorem transferEntries_fourLine (rs : Bool) (b : Byte) :
    transferEntries .fourLine rs b = [.word rs (b.toNat / 16), .word rs (b.toNat % 16)] := by
  have hb : b.toNat / 16 % 16 = b.toNat / 16 := Nat.mod_eq_of_lt (by omega)
  simp [transferEntries, BitVec.extractLsb'_toNat, Nat.shiftRight_eq_div_pow, hb]

/-! ### What a call on an idle block depends on -/

/-- A block that accepts calls begins the operation, or marks the refusal its operands call for (R98, R99). -/
theorem accept_of_accepting {op : OpName} {operand : Option RefuseReason} {as : List Action} {s : State}
    (ha : s.acceptanceRefusal = none) :
    accept op operand as s = .next (operand.elim (s.begin op as) s.markRefused) := by
  cases operand <;> simp only [accept, ha, Option.elim]

/-- On an idle block an operation that only initialization emits has no meaning (R58; log 4). -/
theorem initializationOnly_of_accepting {k : Nat} {own : Bool} {s : State} (ha : s.acceptanceRefusal = none) :
    initializationOnly k own s = .refused .notEmitted := by
  obtain ⟨hph, -⟩ := s.acceptanceRefusal_none.mp ha
  rcases initializationOnly_cases k own s with ⟨-, hk, -⟩ | ⟨-, r, hr, -⟩ | ⟨-, -, hs⟩
  · simp [State.atInitStep_iff, hph] at hk
  · simp [ha] at hr
  · exact hs

/-- An idle block that accepts a drop is dropped (R111). -/
theorem execDrop_of_accepting {s : State} (ha : s.acceptanceRefusal = none) : execDrop s = .next s.becomeDropped := by
  simp only [execDrop, ha]

/-- Two states have the same actions pending and the same phase. -/
def SameTraffic (t t' : State) : Prop := t.pending = t'.pending ∧ t.phase = t'.phase

section
variable {s s' t t' : State} (ha : s.acceptanceRefusal = none) (ha' : s'.acceptanceRefusal = none)
include ha ha'

/-- Blocks that accept calls have nothing pending and are `Ready` (R98). -/
theorem sameTraffic_of_accepting : SameTraffic s s' := by
  obtain ⟨hph, hp⟩ := s.acceptanceRefusal_none.mp ha
  obtain ⟨hph', hp'⟩ := s'.acceptanceRefusal_none.mp ha'
  exact ⟨hp.trans hp'.symm, hph.trans hph'.symm⟩

/-- Either both begin the expansion or both mark the refusal. -/
theorem accept_sameTraffic {op : OpName} {operand : Option RefuseReason} {as : List Action}
    (h : accept op operand as s = .next t) (h' : accept op operand as s' = .next t') : SameTraffic t t' := by
  rw [accept_of_accepting ha, Host.Outcome.next.injEq] at h
  rw [accept_of_accepting ha', Host.Outcome.next.injEq] at h'
  subst h h'
  cases operand with
  | none => exact ⟨rfl, rfl⟩
  | some r => exact sameTraffic_of_accepting ha ha'

/-- Either both begin the initialization of the new configuration or both mark the refusal (R19, R59). -/
theorem execNew_sameTraffic {cfg : Config} (h : execNew cfg s = .next t) (h' : execNew cfg s' = .next t') :
    SameTraffic t t' := by
  by_cases hc : configAccepted cfg = true
  · rw [execNew, if_pos hc, Host.Outcome.next.injEq] at h h'
    subst h h'
    exact ⟨rfl, rfl⟩
  · rw [execNew, if_neg hc, Host.Outcome.next.injEq] at h h'
    subst h h'
    exact sameTraffic_of_accepting ha ha'

/-- Two idle blocks of one configuration answer an operation with the same actions and the same phase (R44). -/
theorem exec_sameTraffic {i : Instr} (hc : s.cfg = s'.cfg) (h : exec i s = .next t) (h' : exec i s' = .next t') :
    SameTraffic t t' := by
  cases i with
  | new cfg => exact execNew_sameTraffic ha ha' h h'
  | drop =>
    simp only [exec, execDrop_of_accepting ha, execDrop_of_accepting ha', Host.Outcome.next.injEq] at h h'
    subst h h'
    exact ⟨(sameTraffic_of_accepting ha ha').1, rfl⟩
  | functionSet | entryModeSet | functionSetRaw =>
    simp [exec, execFunctionSet, execEntryModeSet, execFunctionSetRaw, initializationOnly_of_accepting ha] at h
  | writeChar | writeStr | setCursorPos | shiftDisplay | shiftCursor | setDisplayMode | reset | clear =>
    simp only [exec, execWriteChar, execWriteStr, execSetCursorPos, execShiftDisplay, execShiftCursor,
      execSetDisplayMode, execReset, execClear, ← hc] at h h'
    exact accept_sameTraffic ha ha' h h'

end

/-! ### The state a fetched word runs in -/

/-- Staging does not read or change the inputs (log 8). -/
@[simp] theorem State.stage_inputs (i : Instr) (s : State) : (s.stage i).inputs = s.inputs := by cases i <;> rfl

/-- An overlapping call is made at once (R98). -/
theorem step_of_overlap {s : State} {i : Instr} {rest : List Input} (h : s.inputs = .overlap i :: rest) :
    step s = exec i (s.withInputs rest) := by
  simp [step, State.turn, h]

/-- The owner's call is made once the block is idle (R45). -/
theorem step_of_call {s : State} {i : Instr} {rest : List Input} (h : s.inputs = .call i :: rest)
    (hi : s.idle = true) : step s = exec i (s.withInputs rest) := by
  simp [step, State.turn, h, hi]

/-- The step after the fetch of a word runs the operation the decoder reads from it (log 8). -/
theorem step_withFetchWord {s : State} {nbits w : Nat} {i : Instr} (h : decodeTableWord nbits w = some i) :
    step (s.withFetchWord nbits w) = exec i (s.stage i) := by
  have hw : s.withFetchWord nbits w = (s.stage i).withInputs (.overlap i :: s.inputs) := by
    simp [State.withFetchWord, h]
  rw [hw, step_of_overlap rfl, ← s.stage_inputs i]
  rfl

/-- The configuration of the block that is staged for an operation: its own, but for `function_set` of the mode that
the width bit names (R80; log 8). -/
def stageConfig (cfg : Config) : Instr → Config
  | .functionSet width => withMode cfg width
  | _ => cfg

theorem stage_of_no_emittingStep {i : Instr} (s : State) (h : emittingStep i = none) : s.stage i = s.settle := by
  cases i with
  | functionSet | entryModeSet | functionSetRaw => simp [emittingStep] at h
  | writeChar | writeStr | setCursorPos | shiftDisplay | shiftCursor | setDisplayMode | reset | clear | new | drop => rfl

theorem stage_of_emittingStep {i : Instr} {k : Nat} (s : State) (h : emittingStep i = some k) :
    s.stage i = s.toInitStep (stageConfig s.cfg i) k := by
  cases i with
  | functionSet | entryModeSet | functionSetRaw => obtain rfl := Option.some.inj h; rfl
  | writeChar | writeStr | setCursorPos | shiftDisplay | shiftCursor | setDisplayMode | reset | clear | new | drop =>
    simp [emittingStep] at h

/-! ### Nibble pairs -/

/-- The entries of a bus word in `FourLine`, as quotient and remainder by 16 (R50, R57). -/
def nibbleEntries (w : BusWord) : List LatchEntry :=
  [.word (w.getLsbD 8) (w.toNat / 16 % 16), .word (w.getLsbD 8) (w.toNat % 16)]

theorem wireEntries_fourLine_bus (w : BusWord) : wireEntries .fourLine (.bus w) = nibbleEntries w := by
  simp [wireEntries, nibbleEntries, BitVec.extractLsb'_toNat, Nat.shiftRight_eq_div_pow]

theorem logOfWords_fourLine_bus (ws : List BusWord) :
    logOfWords .fourLine (ws.map .bus) = ws.flatMap nibbleEntries := by
  induction ws with
  | nil => rfl
  | cons w ws ih => simp [logOfWords, wireEntries_fourLine_bus, ih]

/-- A bus word is RS, its high nibble and its low nibble (R49). -/
theorem busWord_of_nibbles (w : BusWord) :
    BitVec.ofBool (w.getLsbD 8) ++ BitVec.ofNat 4 (w.toNat / 16 % 16) ++ BitVec.ofNat 4 (w.toNat % 16) = w := by
  revert w; decide +kernel

/-- Pairing the nibbles of bus words gives these words back (R57). -/
theorem pairNibbles_nibbleEntries (ws : List BusWord) :
    pairNibbles (ws.flatMap nibbleEntries) = some (ws.map .bus) := by
  induction ws with
  | nil => rfl
  | cons w ws ih => simpa [nibbleEntries, pairNibbles, ih] using busWord_of_nibbles w

/-- Words that are all bus words are the image of a list of these. -/
theorem exists_bus_words {ws : List WireWord} (h : ∀ w ∈ ws, w ∈ Set.range WireWord.bus) :
    ∃ bs : List BusWord, bs.map .bus = ws := by
  rwa [← Set.mem_range, Set.range_list_map]

/-- Every word of an operation that runs on an idle block is a bus word: no lone nibble (R41, R119). -/
theorem encode_mem_range_bus {m : BusMode} {i : Instr} {w : WireWord} (hr : runsWhenReady i = true)
    (h : w ∈ encode m i) : w ∈ Set.range WireWord.bus := by
  cases i with
  | writeStr cs =>
    obtain ⟨c, -, rfl⟩ := List.mem_map.mp h
    exact Set.mem_range_self _
  | functionSet | entryModeSet | functionSetRaw | new | drop => simp [runsWhenReady, opName] at hr
  | writeChar | setCursorPos | shiftDisplay | shiftCursor | setDisplayMode | reset | clear =>
    rw [List.mem_singleton.mp h]
    exact Set.mem_range_self _

/-- The words of an initialization and of the operations after it: the raw write's and then bus words (R41, R61). -/
theorem encode_new_append (cfg : Config) {m : BusMode} {ops : List Instr} (hr : ∀ i ∈ ops, runsWhenReady i = true) :
    ∃ bs : List BusWord, encode m (.new cfg) ++ ops.flatMap (encode m) = rawWord cfg.mode :: bs.map .bus := by
  obtain ⟨bs, hbs⟩ := exists_bus_words (ws := (encode m (.new cfg)).tail ++ ops.flatMap (encode m)) fun w hw => by
    rcases List.mem_append.mp hw with hw | hw
    · simp only [encode, List.tail_cons, List.mem_cons, List.not_mem_nil, or_false] at hw
      rcases hw with rfl | rfl | rfl | rfl <;> exact Set.mem_range_self _
    · obtain ⟨i, hi, hw⟩ := List.mem_flatMap.mp hw
      exact encode_mem_range_bus (hr i hi) hw
  exact ⟨bs, by rw [hbs]; rfl⟩

/-! ### The statements of the family -/

/-- Settles O42: an accepted operation has the invariant and its whole expansion pending, so the sequencer completes it
(O40), and the expansion sends the operation's words. -/
theorem operationCompletesWithItsWords : Obligations.OperationCompletesWithItsWords := by
  intro s i h hph hu hr
  have hp := h.idleEmpty (.inl hph)
  obtain ⟨op, -, he⟩ := exec_runs hr hph hp
  obtain ⟨hsteps, -⟩ :=
    sequencerCompletesWhatIsPending _ (h.begin op hr hp) (by exact hu) (.inr ⟨op, rfl⟩)
  have hs := expansion_sends hr (h.driven hp)
  refine ⟨_, _, he, hsteps, ?_, hs.driven.rsLow, hs.driven.enLow, ?_⟩
  · simp [State.settle, State.begin, hph, hp]
  · simp [State.latchLog, latchLogFrom_append, ← h.linesReplay, hs.latched]

/-- Settles O44: the latch log is that of the operation's words, and each of these has the operation's target. -/
theorem onlyDataWritesReachTheDataTarget : Obligations.OnlyDataWritesReachTheDataTarget := by
  refine ⟨fun s i h hph hr e he => ?_, fun cfg hw e he => ?_⟩
  · rw [(expansion_sends hr (h.driven (h.idleEmpty (.inl hph)))).latched] at he
    exact logOfWords_encode_rs he
  · rw [(initSeq_sends cfg cfg.lineCount (wf_lineCount hw)).latched] at he
    exact logOfWords_encode_rs he

/-- Settles O47: what an idle block answers is built from the operation and the configuration. -/
theorem trafficIgnoresHistory : Obligations.TrafficIgnoresHistory := by
  intro s s' t t' i hc hph hph' hp hp' h h'
  exact exec_sameTraffic (s.acceptanceRefusal_none.mpr ⟨hph, hp⟩) (s'.acceptanceRefusal_none.mpr ⟨hph', hp'⟩) hc h h'

/-- Settles O48: what a block has done and has pending sends the lone nibble of the raw write and then bus words. -/
theorem nibblesStayPaired : Obligations.NibblesStayPaired := by
  intro s h hm
  refine ⟨?_, fun hph => by rw [State.latchLog, h.idleEmpty hph, List.append_nil]⟩
  obtain ⟨ops, hops, hs⟩ := h.sends
  obtain ⟨bs, hbs⟩ := encode_new_append s.cfg (m := s.cfg.mode) fun i hi => (hops i hi).1
  refine ⟨bs.flatMap nibbleEntries, bs, ?_, rfl, pairNibbles_nibbleEntries bs⟩
  rw [hs.latched, hbs, hm, ← logOfWords_fourLine_bus]
  rfl

/-- Settles O16: the byte's drives are one for each line, and the one pulse after them leaves the lines alone. -/
theorem eightLineByteIsOneCycle : Obligations.EightLineByteIsOneCycle := by
  intro T b L hd
  refine ⟨by simp [transfer, driveByte, pulse], fun k hk => ⟨?_, ?_⟩⟩
  · rw [Lines.level, transfer_eightLine_data T b L hd]
    exact lastLevels_getD b hk
  · rw [transfer, driveByte_eq_map]
    exact List.mem_append_left _ (List.mem_map.mpr ⟨k, List.mem_range.mpr hk, rfl⟩)

/-- Settles O17: the two nibble cycles of a transfer, read as numbers. -/
theorem fourLineByteIsTwoCyclesHighFirst : Obligations.FourLineByteIsTwoCyclesHighFirst := by
  rintro T b ⟨rs, en, d⟩ hd hrs
  obtain ⟨hlines, -, hlog⟩ := transfer_effect .fourLine T b rs en d hd hrs
  refine ⟨hlog.trans (transferEntries_fourLine _ b), by rw [hlines], fun j hj => ?_⟩
  rw [hlines]
  exact lastLevels_getD (m := .fourLine) b hj

/-- Settles O24: the turn is the call's, and the staged state of an operation that only initialization emits is the
beginning of its step. -/
theorem stepRunsTheCalledOperation : Obligations.StepRunsTheCalledOperation := by
  refine ⟨fun s i rest h hp hph => step_of_call h (s.idle_iff.mpr ⟨hp, hph⟩), fun s i rest h => step_of_overlap h,
    fun s nbits w i h => ⟨step_withFetchWord h, stage_of_no_emittingStep s, fun k hk => ?_⟩⟩
  rw [stage_of_emittingStep s hk]
  exact ⟨rfl, rfl, rfl, rfl, rfl⟩

end Sys2Proof.Machine
end

section
/-! SUPPORT and settlements for the family of spec/30_encoding.md: the decoder and the encoder as each other's inverse, the
latch log read back into words, and the commands as initialization and an idle block send them. The statements are settled
at the end, each from these lemmas. -/

namespace Sys2Proof.Machine

/-! ### The byte form of a word -/

/-- A word is read back from its byte form (log 2). -/
theorem wireOfBytes_wireBytes (w : WireWord) : wireOfBytes (wireBytes w) = .ok w := by
  cases w with
  | bus w => revert w; decide +kernel
  | nib w => revert w; decide

/-- The decoder classifies the byte form of a word as it classifies the word. -/
@[simp] theorem decode_wireBytes (w : WireWord) : decode (wireBytes w) = decodeWire w := by
  rw [decode, wireOfBytes_wireBytes]

/-- Each of these words is classified as the operation that stands at its place (R55). -/
def Classified (ws : List WireWord) (is : List Instr) : Prop := List.Forall₂ (fun w i => decodeWire w = .ok i) ws is

/-- `decodeWords` answers exactly the operations that the words are classified as. -/
theorem decodeWords_eq_some {ws : List WireWord} {is : List Instr} : decodeWords ws = some is ↔ Classified ws is := by
  induction ws generalizing is with
  | nil => simp [decodeWords, Classified, eq_comm]
  | cons w ws ih =>
    have hcons : Classified (w :: ws) is ↔ ∃ i js, decodeWire w = .ok i ∧ decodeWords ws = some js ∧ is = i :: js := by
      simp only [ih]
      exact List.forall₂_cons_left_iff
    rw [hcons, decodeWords, decode_wireBytes]
    cases decodeWire w with
    | error e => simp
    | ok i =>
      cases decodeWords ws with
      | none => simp
      | some js => simp [eq_comm]

/-- One word. -/
theorem Classified.single {w : WireWord} {i : Instr} (h : decodeWire w = .ok i) : Classified [w] [i] := .cons h .nil

/-- Words that are classified list by list are classified one list after the other. -/
theorem Classified.flatMap {ops : List Instr} {f : Instr → List WireWord} {g : Instr → List Instr}
    (h : ∀ i ∈ ops, Classified (f i) (g i)) : Classified (ops.flatMap f) (ops.flatMap g) := by
  rw [List.flatMap_def, List.flatMap_def]
  exact List.rel_flatten (List.forall₂_map_left_iff.mpr (List.forall₂_map_right_iff.mpr (List.forall₂_same.mpr h)))

/-- Words that are classified, and then more of them. -/
theorem Classified.append {ws vs : List WireWord} {is js : List Instr} (h : Classified ws is) (h' : Classified vs js) :
    Classified (ws ++ vs) (is ++ js) :=
  List.rel_append h h'

/-- A word is classified as one of the operations. -/
theorem Classified.exists_of_mem {ws : List WireWord} {is : List Instr} {w : WireWord} (h : Classified ws is)
    (hw : w ∈ ws) : ∃ i ∈ is, decodeWire w = .ok i := by
  induction h with
  | nil => simp at hw
  | cons hd _ ih =>
    rcases List.mem_cons.mp hw with rfl | hw
    · exact ⟨_, List.mem_cons_self, hd⟩
    · obtain ⟨i, hi, hd⟩ := ih hw
      exact ⟨i, List.mem_cons_of_mem _ hi, hd⟩

/-! ### The rows of the opcode map -/

/-- The patterns of two rows differ in a bit that both masks keep. -/
def RowsDisagree (r r' : BusRow) : Prop := r.pattern &&& r'.mask ≠ r'.pattern &&& r.mask

/-- Any two rows of the opcode map disagree (R55). -/
theorem busRows_disagree : busRows.Pairwise RowsDisagree := by
  unfold RowsDisagree
  decide

/-- A word that belongs to two rows has the patterns of both in the bits that both masks keep. -/
theorem patterns_agree_of_fits {r r' : BusRow} {w : BusWord} (h : r.fits w = true) (h' : r'.fits w = true) :
    r.pattern &&& r'.mask = r'.pattern &&& r.mask := by
  rw [← eq_of_beq h, ← eq_of_beq h', BitVec.and_assoc, BitVec.and_comm r.mask, ← BitVec.and_assoc]

/-- Of rows that disagree, a word belongs to at most one. -/
theorem length_le_one_of_fits {rows : List BusRow} {w : BusWord} (hd : rows.Pairwise RowsDisagree)
    (hf : ∀ r ∈ rows, r.fits w = true) : rows.length ≤ 1 := by
  match rows with
  | [] => exact Nat.zero_le 1
  | [_] => exact le_rfl
  | r :: r' :: _ =>
    have hne : RowsDisagree r r' := List.rel_of_pairwise_cons hd List.mem_cons_self
    exact absurd (patterns_agree_of_fits (hf r (by simp)) (hf r' (by simp))) hne

/-- A word belongs to at most one row of the opcode map (R55). -/
theorem busRows_exclusive (w : BusWord) : (busRows.filter (fun r => r.fits w)).length ≤ 1 :=
  length_le_one_of_fits (busRows_disagree.filter _) fun _ hr => (List.mem_filter.mp hr).2

/-- What the decoder accepts, it reads by a row that the word belongs to (R55). -/
theorem decodeBus_ok {w : BusWord} {i : Instr} (h : decodeBus w = .ok i) :
    ∃ r ∈ busRows, r.fits w = true ∧ r.build w = i := by
  unfold decodeBus at h
  split at h
  · next r hr =>
    have hf : r.fits w = true := List.find?_some (p := fun r => BusRow.fits r w) hr
    exact ⟨r, List.mem_of_find?_eq_some hr, hf, by simpa using h⟩
  · simp at h

/-- The decoder accepts exactly the words that belong to a row (R56). -/
theorem exists_decodeBus_ok {w : BusWord} : (∃ i, decodeBus w = .ok i) ↔ ∃ r ∈ busRows, r.fits w = true := by
  constructor
  · rintro ⟨i, h⟩
    obtain ⟨r, hr, hf, -⟩ := decodeBus_ok h
    exact ⟨r, hr, hf⟩
  · intro h
    obtain ⟨r, hr⟩ := Option.isSome_iff_exists.mp (List.find?_isSome (p := fun r => BusRow.fits r w).mpr h)
    exact ⟨r.build w, by rw [decodeBus, hr]⟩

/-- The words of the rows are those that R55 lists as emitted. -/
theorem exists_row_fits_iff (w : BusWord) : (∃ r ∈ busRows, r.fits w = true) ↔
    0x100 ≤ w.toNat ∨ (0x080 ≤ w.toNat ∧ w.toNat ≤ 0x0FF) ∨
      w ∈ ([0x038, 0x028, 0x018, 0x01C, 0x010, 0x014] : List BusWord) ∨ (0x008 ≤ w.toNat ∧ w.toNat ≤ 0x00F) ∨
      w ∈ ([0x006, 0x002, 0x001] : List BusWord) := by
  revert w; decide +kernel

/-- A row reads the bits that its mask leaves free, and the layout of R51 or R52 puts them back in the same places: the
operation a row builds is well formed, and its word is the one that was read. -/
theorem encode_build (m : BusMode) :
    ∀ r ∈ busRows, ∀ w, r.fits w = true → (r.build w).wf = true ∧ encode m (r.build w) = [.bus w] := by
  cases m <;> decide +kernel

/-! ### The words of an operation -/

/-- A data word is classified as the character it carries (R52). -/
theorem decodeBus_dataWord {c : Nat} (h : codeFits c = true) : decodeBus (dataWord c) = .ok (.writeChar c) := by
  have hbyte : ∀ b : Byte, decodeBus (1#1 ++ b) = .ok (.writeChar b.toNat) := by decide +kernel
  have hc : c < 2 ^ 8 := Nat.lt_succ_of_le (of_decide_eq_true h)
  rw [dataWord, hbyte, BitVec.toNat_ofNat, Nat.mod_eq_of_lt hc]

/-- A set-DDRAM-address word is classified as the position's low 7 bits (R53, R77). -/
theorem decodeBus_cursorPos (pos : Byte) :
    decodeBus (commandWord (1#1 ++ pos.extractLsb' 0 7)) = .ok (.setCursorPos (pos &&& 0x7F)) := by
  revert pos; decide +kernel

/-- A display-control word is classified by its three flags (R76). -/
theorem decodeBus_displayControl (on c b : Bool) :
    decodeBus (commandWord (0b00001#5 ++ BitVec.ofBool on ++ BitVec.ofBool c ++ BitVec.ofBool b)) =
      .ok (.setDisplayMode on c b) := by
  revert on c b; decide

/-- Initialization's display-control word, which has the display on (R67). -/
theorem decodeBus_initDisplayControl (c b : Bool) :
    decodeBus (commandWord (0b000011#6 ++ BitVec.ofBool c ++ BitVec.ofBool b)) = .ok (.setDisplayMode true c b) := by
  revert c b; decide

/-- A function-set word is classified by its width bit (R80). -/
theorem decodeBus_functionSet (m : BusMode) :
    decodeBus (commandWord (0b001#3 ++ widthBit m ++ 0b1000#4)) = .ok (.functionSet m) := by
  cases m <;> decide

/-- A shift word is classified by its direction bit, with the display or the cursor as its target (R54, R78, R79). -/
theorem decodeBus_shift (dir : Direction) :
    decodeBus (commandWord (0b00011#5 ++ directionBit dir ++ 0b00#2)) = .ok (.shiftDisplay dir) ∧
    decodeBus (commandWord (0b00010#5 ++ directionBit dir ++ 0b00#2)) = .ok (.shiftCursor dir) := by
  cases dir <;> decide

/-- The word of the raw write is classified as the mode has it (R55, R64). -/
theorem decodeWire_rawWord (m : BusMode) : decodeWire (rawWord m) = .ok (rawOnWire m) := by
  cases m <;> decide

/-- The words of a well-formed operation are classified as what they stand for (R51 to R55). -/
theorem encode_classified (m : BusMode) {i : Instr} (hw : i.wf = true) : Classified (encode m i) (i.onWire m) := by
  cases i with
  | writeChar c => exact .single (decodeBus_dataWord hw)
  | writeStr cs =>
    refine List.forall₂_map_left_iff.mpr (List.forall₂_map_right_iff.mpr (List.forall₂_same.mpr fun c hc => ?_))
    exact decodeBus_dataWord (List.all_eq_true.mp hw c hc)
  | new cfg =>
    exact .cons (decodeWire_rawWord _) (.cons (decodeBus_functionSet _) (.cons (decodeBus_initDisplayControl _ _)
      (.cons rfl (.cons rfl .nil))))
  | drop => exact .nil
  | functionSetRaw => exact .single (decodeWire_rawWord m)
  | functionSet width => exact .single (decodeBus_functionSet width)
  | setCursorPos pos => exact .single (decodeBus_cursorPos pos)
  | shiftDisplay dir => exact .single (decodeBus_shift dir).1
  | shiftCursor dir => exact .single (decodeBus_shift dir).2
  | setDisplayMode on c b => exact .single (decodeBus_displayControl on c b)
  | entryModeSet | reset | clear => exact .single rfl

/-- What runs on an idle block is well formed (R99). -/
theorem runsWhenReady_wf {i : Instr} (h : runsWhenReady i = true) : i.wf = true := (Bool.and_eq_true_iff.mp h).2

/-- What the words of an API operation other than the constructor stand for is an API operation itself (R58). -/
theorem isApi_of_mem_onWire {m : BusMode} {i j : Instr} (ha : i.isApi = true) (hn : ∀ cfg, i ≠ .new cfg)
    (hj : j ∈ i.onWire m) : j.isApi = true := by
  cases i with
  | writeStr cs =>
    obtain ⟨c, -, rfl⟩ := List.mem_map.mp hj
    rfl
  | new cfg => exact absurd rfl (hn cfg)
  | drop => simp [Instr.onWire] at hj
  | functionSet | entryModeSet | functionSetRaw => simp [Instr.isApi] at ha
  | writeChar | setCursorPos | shiftDisplay | shiftCursor | setDisplayMode | reset | clear =>
    rw [List.mem_singleton.mp hj]
    rfl

/-! ### The latch log read back into words -/

/-- An `EightLine` word is its RS bit and its byte (R49). -/
theorem busWord_of_byte (w : BusWord) :
    BitVec.ofBool (w.getLsbD 8) ++ BitVec.ofNat 8 (w.extractLsb' 0 8).toNat = w := by
  revert w; decide +kernel

/-- Reading the entries of bus words in `EightLine` gives these words back (R57). -/
theorem byteWords_logOfWords (ws : List BusWord) :
    byteWords (logOfWords .eightLine (ws.map .bus)) = some (ws.map .bus) := by
  induction ws with
  | nil => rfl
  | cons w ws ih =>
    simp only [List.map_cons, logOfWords, wireEntries, List.singleton_append, byteWords, ih, busWord_of_byte,
      Option.map_some]

/-- A latch log that begins with the raw write reads back as its words, in both modes (R57). -/
theorem wordsOfLog_logOfWords (m : BusMode) (ws : List BusWord) :
    wordsOfLog m (logOfWords m (rawWord m :: ws.map .bus)) = some (rawWord m :: ws.map .bus) := by
  cases m with
  | eightLine => exact byteWords_logOfWords (commandWord 0x38 :: ws)
  | fourLine =>
    have hlog : logOfWords .fourLine (rawWord .fourLine :: ws.map .bus) = .word false 2 :: ws.flatMap nibbleEntries := by
      rw [logOfWords, logOfWords_fourLine_bus]
      rfl
    rw [hlog, wordsOfLog, pairNibbles_nibbleEntries]
    rfl

/-! ### The inputs -/

/-- A call leaves the inputs alone. -/
theorem exec_inputs {i : Instr} {s t : State} (h : exec i s = .next t) : t.inputs = s.inputs := by
  rcases exec_cases h with ⟨r, rfl⟩ | ⟨op, -, -, -, -, rfl⟩ | ⟨cfg, -, -, rfl⟩ | ⟨-, -, -, rfl⟩ |
    ⟨k, -, -, -, rfl⟩ <;> rfl

/-- A sequencer step leaves the inputs alone (R27). -/
theorem sequence_inputs {s t : State} (h : s.sequence = .next t) : t.inputs = s.inputs := by
  rcases sequence_cases h with ⟨a, rest, -, -, rfl⟩ | ⟨-, -, rfl⟩ | ⟨-, -, rfl⟩ <;> rfl

/-- A step takes the next input, or none: what is left are later ones (log 3). -/
theorem step_inputs_suffix {s t : State} (h : step s = .next t) : t.inputs <:+ s.inputs := by
  rcases step_cases s with ⟨i, rest, -, he, hi⟩ | ⟨rest, -, he, hi⟩ <;> rw [he] at h
  · rw [exec_inputs h]
    rcases hi with hi | ⟨hi, -⟩ <;> (rw [hi]; exact List.suffix_cons _ _)
  · rw [sequence_inputs h]
    rcases hi with hi | hi
    · rw [hi]; exact List.suffix_cons _ _
    · exact hi ▸ List.suffix_rfl

/-- Later inputs of API callers are API calls too (R58). -/
theorem State.apiInputs_of_suffix {s t : State} (h : s.apiInputs = true) (hs : t.inputs <:+ s.inputs) :
    t.apiInputs = true :=
  List.all_eq_true.mpr fun x hx => List.all_eq_true.mp h x (hs.subset hx)

/-! ### The command cycles of initialization -/

/-- The number of actions of a command cycle (R70). -/
theorem commandCycle_length (cfg : Config) (b : Byte) (t : Nat) : (commandCycle cfg b t).length = cfg.mode.pick 14 18 := by
  cases hm : cfg.mode <;> simp [commandCycle, transfer, driveByte, driveNibble, pulse, hm, BusMode.pick]

/-- Where initialization is about to begin a step that is a command cycle, the operation that is this step performs it,
and so do as many steps of the machine (R61, R66, R69). -/
theorem initializationOnly_commandCycle {s : State} {k : Nat} {b : Byte} {t : Nat} (hph : s.phase = .constructing)
    (hd : s.lines.data.length = s.cfg.mode.lineCount) (hp : s.pending = ((initSteps s.cfg).drop k).flatten)
    (hk : initStep s.cfg k = commandCycle s.cfg b t) :
    initializationOnly k true s = .next
      { s with
        lines := ⟨.low, .low, lastLevels s.cfg.mode b⟩
        trace := s.trace ++ commandCycle s.cfg b t
        pending := ((initSteps s.cfg).drop (k + 1)).flatten } ∧
    (s.undisturbed → steps (s.cfg.mode.pick 14 18) s = initializationOnly k true s) := by
  obtain ⟨hlines, hperf, -⟩ := commandCycle_effect s.cfg b t s.lines.rs s.lines.en s.lines.data hd
  have hp' : s.pending = commandCycle s.cfg b t ++ ((initSteps s.cfg).drop (k + 1)).flatten := by
    rw [hp, initStep_append, hk]
  have hat : initializationOnly k true s =
      .next (s.perform (commandCycle s.cfg b t) ((initSteps s.cfg).drop (k + 1)).flatten) := by
    rw [← hk]
    exact initializationOnly_at (s.atInitStep_iff k |>.mpr ⟨hph, by rw [hk, hp']⟩) (by rw [hk]; exact hperf)
  refine ⟨by rw [hat, State.perform, ← hlines], fun hu => ?_⟩
  rw [hat, ← commandCycle_length s.cfg b t]
  exact steps_perform s _ _ hu hp' hperf

/-- A construction gets to the beginning of each step of initialization, after as many steps of the machine as the earlier
steps of initialization have actions (R59, R61). -/
theorem steps_construct (s : State) {cfg : Config} (k : Nat) (hw : cfg.wf = true) (hu : s.undisturbed) :
    steps ((initSteps cfg).take k).flatten.length (s.construct cfg) = .next (s.toInitStep cfg k) := by
  have hp : (s.construct cfg).pending = ((initSteps cfg).take k).flatten ++ ((initSteps cfg).drop k).flatten := by
    rw [← List.flatten_append, List.take_append_drop]
    rfl
  have hf := (s.construct_inv hw).pending_performable
  rw [hp, performable_append, Bool.and_eq_true] at hf
  exact steps_perform (s.construct cfg) _ _ hu hp hf.1

/-- How many actions come before step 4 and before step 7 of initialization (R70). -/
theorem initSteps_take_length (cfg : Config) :
    ((initSteps cfg).take 4).flatten.length = cfg.mode.pick 16 12 ∧
    ((initSteps cfg).take 7).flatten.length = cfg.mode.pick 58 66 := by
  cases hm : cfg.mode <;>
    simp [initSteps, rawFunctionSet, commandCycle_length, driveByte, driveNibble, pulse, hm, BusMode.pick]

/-- The lines of a construction are the mode's, at every step of its initialization (R23). -/
theorem toInitStep_lineCount (s : State) {cfg : Config} (k : Nat) (hw : cfg.wf = true) :
    (s.toInitStep cfg k).lines.data.length = cfg.mode.lineCount := by
  rw [State.toInitStep, State.perform_lines, applyAll_length]
  exact (s.construct_inv hw).lineCount

/-! ### The statements of the family -/

/-- Settles O3: each word of the operation is classified as what it stands for. -/
theorem encodedOperationsDecodeBack : Obligations.EncodedOperationsDecodeBack :=
  fun m _ hw => decodeWords_eq_some.mpr (encode_classified m hw)

/-- Settles O4: the word belongs to the row that builds the operation, and a row's word is its operation's. -/
theorem decodedWordIsItsEncoding : Obligations.DecodedWordIsItsEncoding := by
  refine ⟨fun m w i h => ?_, fun w i h => ?_⟩
  · obtain ⟨r, hr, hf, rfl⟩ := decodeBus_ok h
    exact encode_build m r hr w hf
  · unfold decodeNib at h
    split at h
    · next hw =>
      obtain rfl : Instr.functionSetRaw = i := by simpa using h
      rw [hw]
      rfl
    · simp at h

/-- Settles O46: an API operation's word decodes to what it stands for, an API operation other than the three. -/
theorem apiWordsNeverReinitialize : Obligations.ApiWordsNeverReinitialize := by
  intro m i j w ha hn hwf hw hj
  obtain ⟨j', hmem, hj'⟩ := (encode_classified m hwf).exists_of_mem hw
  obtain rfl : j' = j := by simpa [hj'] using hj
  have hapi := isApi_of_mem_onWire ha hn hmem
  refine ⟨?_, ?_, fun width => ?_⟩ <;> rintro rfl <;> simp [Instr.isApi] at hapi

/-- Settles O32: the invariant is kept (O31), and what is left of the inputs are later ones. -/
theorem everyStepKeepsTheApiInvariant : Obligations.EveryStepKeepsTheApiInvariant :=
  fun s t ⟨hinv, hapi⟩ h =>
    ⟨everyStepKeepsTheInvariant s t hinv h, s.apiInputs_of_suffix hapi (step_inputs_suffix h)⟩

/-- Settles O43: the trace of an idle block sends the words of its initialization and of its operations, the log of which
begins with the raw write, and each operation's words are classified as what they stand for. -/
theorem latchLogReadsBackAsTheOperations : Obligations.LatchLogReadsBackAsTheOperations := by
  intro s h hph
  obtain ⟨ops, hops, htr⟩ := h.history
  rw [h.idleEmpty hph, List.append_nil] at htr
  have hruns : ∀ i ∈ ops, runsWhenReady i = true := fun i hi => (hops i hi).1
  refine ⟨ops, hops, htr, ?_, ?_⟩
  · have hinit := initSeq_sends s.cfg s.cfg.lineCount (wf_lineCount h.configLegal)
    have hall := hinit.append (expansions_sends hruns hinit.driven)
    obtain ⟨bs, hbs⟩ := encode_new_append s.cfg hruns
    rw [State.latchLog, htr, hall.latched, hbs]
    exact wordsOfLog_logOfWords s.cfg.mode bs
  · have hnew : Classified _ _ := encode_classified s.cfg.mode (i := .new s.cfg) h.configLegal
    have hrest : Classified _ _ := .flatMap fun i hi => encode_classified s.cfg.mode (runsWhenReady_wf (hruns i hi))
    exact decodeWords_eq_some.mpr (hnew.append hrest)

/-- Settles O9: steps 4 and 7 are command cycles, every construction performs the steps before them, and an idle block has
no step of initialization to perform. -/
theorem initializationCommandsSendTheirWords : Obligations.InitializationCommandsSendTheirWords := by
  refine ⟨fun s hph hd => ⟨fun hp => ?_, fun hp => ?_⟩, fun s cfg hw hu => ?_, fun s hph hp => ?_⟩
  · obtain ⟨hexec, hsteps⟩ := initializationOnly_commandCycle hph hd hp rfl
    have he : exec (.functionSet s.cfg.mode) s = initializationOnly 4 true s := by simp [exec, execFunctionSet]
    rw [he]
    refine ⟨hexec.trans ?_, hsteps⟩
    cases s.cfg.mode <;> rfl
  · obtain ⟨hexec, hsteps⟩ := initializationOnly_commandCycle hph hd hp rfl
    refine ⟨hexec.trans ?_, hsteps⟩
    cases s.cfg.mode <;> rfl
  · obtain ⟨hlen4, hlen7⟩ := initSteps_take_length cfg
    have hnew : exec (.new cfg) s = .next (s.construct cfg) := by simp [exec, execNew, configAccepted_eq_wf, hw]
    exact ⟨s.construct cfg, s.toInitStep cfg 4, s.toInitStep cfg 7, hnew,
      hlen4 ▸ steps_construct s 4 hw hu, rfl, rfl, rfl, toInitStep_lineCount s 4 hw,
      hlen7 ▸ steps_construct s 7 hw hu, rfl, rfl, rfl, toInitStep_lineCount s 7 hw⟩
  · have ha := s.acceptanceRefusal_none.mpr ⟨hph, hp⟩
    exact ⟨fun _ => initializationOnly_of_accepting ha, initializationOnly_of_accepting ha⟩

/-- Settles O1: each word is classified by evaluating the opcode map. -/
theorem specWordsDecode : Obligations.SpecWordsDecode := by
  unfold Obligations.SpecWordsDecode
  decide

/-- Settles O2: the rows exclude each other, and the words of a row are those the block emits. -/
theorem opcodeRowsExclusive : Obligations.OpcodeRowsExclusive :=
  fun w => ⟨busRows_exclusive w, exists_decodeBus_ok.trans (exists_row_fits_iff w)⟩

/-- Settles O6: an idle block accepts the command cycle of the byte that the direction gives. -/
theorem shiftCommandsSendTheirBytes : Obligations.ShiftCommandsSendTheirBytes := by
  intro s dir hph hp
  cases dir with
  | left => exact ⟨accept_ready hph hp, accept_ready hph hp⟩
  | right => exact ⟨accept_ready hph hp, accept_ready hph hp⟩

end Sys2Proof.Machine
end

section
/-! SUPPORT and settlements for the family of spec/40_initialization.md: where in its steps initialization is, its raw write
as a step of its own, and the length and the least time of initialization and of each operation. The statements are settled
at the end, each from these lemmas. -/

namespace Sys2Proof.Machine

/-! ### The step that is reached -/

/-- Where a list of steps has been performed up to `bs`, the step reached is the one that `bs` begins in: what has been
done is the earlier steps and a first part of it, and `bs` begins with its last part `rest` (R61). -/
theorem stepReached_of_append {k : Nat} {stages : List (List Action)} {as bs : List Action}
    (h : as ++ bs = stages.flatten) (hb : bs ≠ []) :
    ∃ j stage done rest, stepReached k stages bs.length = some (k + j) ∧ stages[j]? = some stage ∧
      stage = done ++ rest ∧ rest ≠ [] ∧ as = (stages.take j).flatten ++ done ∧
      bs = rest ++ (stages.drop (j + 1)).flatten := by
  induction stages generalizing k as with
  | nil => simp [hb] at h
  | cons stage later ih =>
    replace ih := @ih (k + 1)
    rw [List.flatten_cons, List.append_eq_append_iff] at h
    rw [stepReached]
    split
    · next hlt =>
      rcases h with ⟨rest, hstage, rfl⟩ | ⟨as', -, hlater⟩
      · refine ⟨0, stage, as, rest, rfl, rfl, hstage, ?_, rfl, rfl⟩
        rintro rfl
        simp at hlt
      · simp [hlater] at hlt
    · next hlt =>
      obtain ⟨as', rfl, hlater⟩ : ∃ as', as = stage ++ as' ∧ as' ++ bs = later.flatten := by
        rcases h with ⟨rest, rfl, rfl⟩ | ⟨as', has, hlater⟩
        · obtain rfl : rest = [] := by simpa using hlt
          exact ⟨[], by simp, rfl⟩
        · exact ⟨as', has, hlater.symm⟩
      obtain ⟨j, current, done, rest, hj, hcurrent, hsplit, hne, rfl, hrest⟩ := ih hlater
      exact ⟨j + 1, current, done, rest, by rw [hj, Nat.add_right_comm, Nat.add_assoc], hcurrent, hsplit, hne, by simp,
        hrest⟩

/-- Initialization has eight steps, 0 to 7 (R61). -/
theorem initSteps_length (cfg : Config) : (initSteps cfg).length = 8 := rfl

/-! ### The raw write as a step of initialization -/

/-- The raw write's drives and its pulse (R64). -/
theorem rawFunctionSet_eq (cfg : Config) :
    rawFunctionSet cfg = cfg.mode.pick (driveByte 0x38) (driveNibble 0x2) ++ pulse cfg.delays := by
  rw [rawFunctionSet]
  cases cfg.mode <;> rfl

/-- The number of actions of the raw write. -/
theorem rawFunctionSet_length (cfg : Config) : (rawFunctionSet cfg).length = cfg.mode.pick 12 8 := by
  rw [rawFunctionSet_eq]
  cases cfg.mode <;> rfl

/-- Where initialization is about to begin a step that can be performed, the operation that is this step performs it, and
so do as many steps of the machine (R61). -/
theorem initializationOnly_and_steps_perform {s : State} {k : Nat} (hph : s.phase = .constructing)
    (hp : s.pending = ((initSteps s.cfg).drop k).flatten) (hf : performable s.lines (initStep s.cfg k) = true) :
    initializationOnly k true s = .next (s.perform (initStep s.cfg k) ((initSteps s.cfg).drop (k + 1)).flatten) ∧
    (s.undisturbed → steps (initStep s.cfg k).length s = initializationOnly k true s) := by
  rw [initStep_append] at hp
  have hat := initializationOnly_at ((s.atInitStep_iff k).mpr ⟨hph, hp⟩) hf
  exact ⟨hat, fun hu => hat ▸ steps_perform s _ _ hu hp hf⟩

/-- A legal configuration makes the construction-entry state (R59). -/
theorem exec_new {cfg : Config} (s : State) (h : cfg.wf = true) : exec (.new cfg) s = .next (s.construct cfg) := by
  simp [exec, execNew, configAccepted_eq_wf, h]

/-! ### The bytes of initialization's commands -/

/-- The layout of the display-on command with the configured flags (R67). -/
theorem displayControlByte_on (c b : Bool) :
    displayControlByte true c b = 0b000011#6 ++ BitVec.ofBool c ++ BitVec.ofBool b := by
  revert c b; decide

/-- The function-set byte of each mode (R66, R80). -/
theorem functionSetByte_eq (m : BusMode) : functionSetByte m = m.pick 0x38 0x28 := by cases m <;> decide

/-! ### How many actions there are -/

/-- The number of actions of a data cycle (R123). -/
theorem dataCycle_length (cfg : Config) (c : Byte) : (dataCycle cfg c).length = cfg.mode.pick 15 19 := by
  rw [dataCycle]
  cases cfg.mode <;> rfl

/-- The number of actions of a string: a data cycle's for each character (R123). -/
theorem stringCycles_length (cfg : Config) (cs : List Nat) :
    (stringCycles cfg cs).length = cs.length * cfg.mode.pick 15 19 := by
  induction cs with
  | nil => simp [stringCycles]
  | cons c cs ih => simp [stringCycles, ih, dataCycle_length, Nat.add_mul, Nat.add_comm]

/-! ### The least time -/

/-- A pulse takes at least its two waits (R89, R94). -/
@[simp] theorem minTime_pulse (T : DelayTable) : minTime (pulse T) = T.tPw + T.tPl := rfl

@[simp] theorem minTime_driveByte (b : Byte) : minTime (driveByte b) = 0 := rfl

@[simp] theorem minTime_driveNibble (v : BitVec 4) : minTime (driveNibble v) = 0 := rfl

/-- A transfer takes at least its pulses: one, or one for each nibble (R87, R88). -/
@[simp] theorem minTime_transfer (m : BusMode) (T : DelayTable) (b : Byte) :
    minTime (transfer m T b) = m.pick 1 2 * (T.tPw + T.tPl) := by
  cases m <;> simp [transfer, minTime_append, BusMode.pick, Nat.two_mul]

/-- A command cycle takes at least its settle wait and its pulses (R123). -/
theorem minTime_commandCycle (cfg : Config) (b : Byte) (t : Nat) :
    minTime (commandCycle cfg b t) = t + cfg.mode.pick 1 2 * (cfg.delays.tPw + cfg.delays.tPl) := by
  simp [commandCycle, minTime, minTime_append, Nat.add_comm]

/-- A data cycle takes at least T_DATA and its pulses (R123). -/
theorem minTime_dataCycle (cfg : Config) (c : Byte) : minTime (dataCycle cfg c)
    = cfg.delays.tData + cfg.mode.pick 1 2 * (cfg.delays.tPw + cfg.delays.tPl) := by
  simp [dataCycle, minTime, minTime_append, Nat.add_comm]

/-- A string takes at least as long as its characters (R123). -/
theorem minTime_stringCycles (cfg : Config) (cs : List Nat) : minTime (stringCycles cfg cs)
    = cs.length * (cfg.delays.tData + cfg.mode.pick 1 2 * (cfg.delays.tPw + cfg.delays.tPl)) := by
  induction cs with
  | nil => simp [stringCycles, minTime]
  | cons c cs ih =>
    rw [stringCycles, minTime_append, ih, minTime_dataCycle, List.length_cons, Nat.succ_mul, Nat.add_comm]

/-- The raw write takes at least its one pulse (R64). -/
theorem minTime_rawFunctionSet (cfg : Config) :
    minTime (rawFunctionSet cfg) = cfg.delays.tPw + cfg.delays.tPl := by
  rw [rawFunctionSet_eq]
  cases cfg.mode <;> rfl

/-- Initialization takes at least its two waits, the settle waits of its four commands, and its pulses (R71). -/
theorem minTime_initSeq (cfg : Config) : minTime (initSeq cfg) = cfg.delays.tPor + cfg.delays.tFs1
    + 3 * cfg.delays.tInit + cfg.delays.tClr + cfg.mode.pick 5 9 * (cfg.delays.tPw + cfg.delays.tPl) := by
  simp only [initSeq, initSteps, List.flatten_cons, List.flatten_nil, minTime_append, minTime, minTime_rawFunctionSet,
    minTime_commandCycle]
  cases cfg.mode <;> simp only [BusMode.pick] <;> omega

/-! ### The statements of the family -/

/-- Settles O39: in `Constructing` the trace and what is pending are the steps of initialization, cut inside the step that
is reached. -/
theorem initializationStepsInOrder : Obligations.InitializationStepsInOrder := by
  intro s h hph hne
  obtain ⟨k, stage, done, rest, hk, hstage, hsplit, hrest, htrace, hpending⟩ :=
    stepReached_of_append (k := 0) (h.constructingInit hph) hne
  have hlt : k < (initSteps s.cfg).length := (List.getElem?_eq_some_iff.mp hstage).1
  rw [initSteps_length] at hlt
  refine ⟨k, stage, done, rest, ?_, by omega, hstage, hsplit, hrest, htrace, hpending⟩
  simpa [State.initState, hph] using hk

/-- Settles O49: the lengths of the cycles, and of the sequences made of them. -/
theorem eventCounts : Obligations.EventCounts := fun cfg =>
  ⟨initSeq_length cfg, commandCycle_length cfg, stringCycles_length cfg, fun c => dataCycle_length cfg (codeByte c), rfl⟩

/-- Settles O50: an operation is a command cycle, a data cycle or a string of them; the reference values are the symbolic
ones at the reference delays. -/
theorem leastTimes : Obligations.LeastTimes := by
  rintro cfg T rfl
  refine ⟨minTime_initSeq cfg, minTime_commandCycle cfg, ?_, ?_, fun c => minTime_dataCycle cfg (codeByte c), rfl,
    minTime_stringCycles cfg, fun href => ?_⟩
  · intro i hi
    obtain rfl | rfl : i = .clear ∨ i = .reset := by simpa using hi
    · exact minTime_commandCycle cfg _ _
    · exact minTime_commandCycle cfg _ _
  · rintro i (⟨on, c, b, rfl⟩ | ⟨pos, rfl⟩ | ⟨dir, rfl⟩ | ⟨dir, rfl⟩) <;> exact minTime_commandCycle cfg _ _
  · simp only [expansion, minTime_initSeq, minTime_commandCycle, minTime_dataCycle, href]
    cases cfg.mode <;> simp [BusMode.pick, DelayTable.reference]

/-- Settles O55: the raw write is initialization step 2, every construction performs the two steps before it, and an idle
block has no step of initialization to perform. -/
theorem functionSetRawIsStepTwo : Obligations.FunctionSetRawIsStepTwo := by
  refine ⟨fun s hph hp hrs hd => ?_, fun s cfg hw hu => ?_, fun s hph hp => ?_⟩
  · have hl : s.lines = ⟨.low, s.lines.en, s.lines.data⟩ := by rw [← hrs]
    obtain ⟨hlines, hperf, -⟩ := rawFunctionSet_effect s.cfg s.lines.en s.lines.data hd
    rw [← hl] at hlines hperf
    obtain ⟨hexec, hsteps⟩ := initializationOnly_and_steps_perform hph hp hperf
    refine ⟨hexec.trans ?_, ?_⟩
    · rw [State.perform, show initStep s.cfg 2 = rawFunctionSet s.cfg from rfl, hlines, rawFunctionSet_eq,
        List.append_assoc]
      cases s.cfg.mode <;> rfl
    · rw [← rawFunctionSet_length]
      exact hsteps
  · exact ⟨s.construct cfg, s.toInitStep cfg 2, exec_new s hw, steps_construct s 2 hw hu, rfl, rfl, rfl, rfl,
      toInitStep_lineCount s 2 hw⟩
  · exact initializationOnly_of_accepting (s.acceptanceRefusal_none.mpr ⟨hph, hp⟩)

/-- Settles O13: the constructor accepts, and construction entry has the mode's number of lines. -/
theorem newMakesTheConstructionEntryState : Obligations.NewMakesTheConstructionEntryState := by
  intro s cfg h
  rw [exec_new s h, State.construct, Lines.unknown, wf_lineCount h]

/-- Settles O18: the steps with the bytes of their commands written out. -/
theorem initSequenceSteps : Obligations.InitSequenceSteps := by
  intro cfg
  simp [initSeq, initSteps, rawFunctionSet_eq, pulse, functionSetByte_eq, displayControlByte_on, entryModeByte_eq,
    clearByte]

/-- Settles O19: the two steps are waits by definition, and a legal configuration has its delays in range. -/
theorem powerOnAndFunctionSetWaits : Obligations.PowerOnAndFunctionSetWaits := by
  refine fun cfg => ⟨rfl, rfl, fun h => ?_⟩
  obtain ⟨⟨hpor, -⟩, ⟨hfs1, -⟩, -⟩ := wf_delays h
  exact ⟨hpor, hfs1⟩

end Sys2Proof.Machine
end

section
/-! SUPPORT and settlements for the family of spec/41_commands.md: which part of a command's byte each operand fills, and
the commands that an idle block accepts. The statements are settled at the end, each from these lemmas. -/

namespace Sys2Proof.Machine

/-! ### The operands in their bytes -/

/-- Each flag of display-on/off-control is read back from its own bit: D from bit 2, C from bit 1, B from bit 0 (R76). -/
theorem displayControlByte_bits (on c b : Bool) :
    (displayControlByte on c b).getLsbD 2 = on ∧ (displayControlByte on c b).getLsbD 1 = c ∧
      (displayControlByte on c b).getLsbD 0 = b := by
  simp only [displayControlByte_layout, BitVec.getLsbD_append]
  simp

/-- Different flags give different bytes (R76). -/
theorem displayControlByte_inj {on c b on' c' b' : Bool} (h : displayControlByte on c b = displayControlByte on' c' b') :
    on = on' ∧ c = c' ∧ b = b' := by
  obtain ⟨hon, hc, hb⟩ := displayControlByte_bits on c b
  obtain ⟨hon', hc', hb'⟩ := displayControlByte_bits on' c' b'
  rw [h] at hon hc hb
  exact ⟨hon.symm.trans hon', hc.symm.trans hc', hb.symm.trans hb'⟩

/-- Bit 7 of the position does not reach the byte: adding 128 keeps the low 7 bits (R77). -/
theorem cursorPosByte_add_128 (pos : Byte) : cursorPosByte (pos + 128) = cursorPosByte pos := by
  have hlow : (pos + 128).extractLsb' 0 7 = pos.extractLsb' 0 7 :=
    (BitVec.extractLsb'_add (by decide)).trans (BitVec.add_zero _)
  rw [cursorPosByte_layout, cursorPosByte_layout, hlow]

/-! ### The statements of the family -/

/-- Settles O7: an idle block accepts the command cycle of the masked position, and an operation sees its position only
through the byte. -/
theorem setCursorPosMasksThePosition : Obligations.SetCursorPosMasksThePosition := by
  refine ⟨fun s pos hph hp => ?_, fun s pos => ?_⟩
  · rw [← cursorPosByte_layout]
    exact accept_ready hph hp
  · simp only [exec, execSetCursorPos, cursorPosByte_add_128]

/-- Settles O5: an idle block accepts the command cycle of the byte, which has each flag in a bit of its own. -/
theorem setDisplayModeSendsItsByte : Obligations.SetDisplayModeSendsItsByte := by
  refine ⟨fun s on c b hph hp => ?_, fun _ _ _ _ _ _ h => displayControlByte_inj h, rfl, rfl⟩
  rw [← displayControlByte_layout]
  exact accept_ready hph hp

/-- Settles O8: an idle block accepts the command cycles of the two literal bytes. -/
theorem longCommandsSendTheirBytes : Obligations.LongCommandsSendTheirBytes :=
  fun _ hph hp => ⟨accept_ready hph hp, accept_ready hph hp⟩

end Sys2Proof.Machine
end

section
/-! SUPPORT and settlements for the family of spec/42_data_writes.md: the check of a write's codes, and the data cycles of a
string. The statements are settled at the end, each from these lemmas. -/

namespace Sys2Proof.Machine

/-! ### 8-bit codes -/

/-- An 8-bit code is sent as itself (R52). -/
@[simp] theorem codeByte_toNat (c : Byte) : codeByte c.toNat = c := by
  rw [codeByte, BitVec.ofNat_toNat, BitVec.setWidth_eq]

/-- 8-bit codes are not refused (R82, R83). -/
@[simp] theorem codesRefusal_map_toNat (cs : List Byte) : codesRefusal (cs.map BitVec.toNat) = none := by
  rw [codesRefusal_none, List.all_eq_true]
  intro n hn
  obtain ⟨c, -, rfl⟩ := List.mem_map.mp hn
  exact decide_eq_true (Nat.le_of_lt_succ c.isLt)

/-- The cycles of a string of 8-bit codes are the data cycles of its characters (R83). -/
theorem stringCycles_map_toNat (cfg : Config) (cs : List Byte) :
    stringCycles cfg (cs.map BitVec.toNat) = cs.flatMap (dataCycle cfg) := by
  induction cs with
  | nil => rfl
  | cons c cs ih => rw [List.map_cons, stringCycles, codeByte_toNat, ih, List.flatMap_cons]

/-! ### Wide codes -/

/-- One wide code among them refuses the codes (R83, R99). -/
theorem codesRefusal_of_wide {c : Nat} {cs : List Nat} (hc : c ∈ cs) (hwide : 0xFF < c) :
    codesRefusal cs = some .codeTooWide :=
  if_pos (List.any_eq_true.mpr ⟨c, hc, decide_eq_true hwide⟩)

/-! ### The statements of the family -/

/-- Settles O12: the codes are not refused, and the cycles of the string are its characters'. -/
theorem writeStrSendsItsCodesInOrder : Obligations.WriteStrSendsItsCodesInOrder := by
  intro s cs hph hp
  rw [← stringCycles_map_toNat, exec, execWriteStr, codesRefusal_map_toNat]
  exact accept_ready hph hp

/-- Settles O21: the block accepts calls, so the wide code is the only ground to refuse. -/
theorem wideCodeRefused : Obligations.WideCodeRefused := by
  intro s hph hp
  have ha := s.acceptanceRefusal_none.mpr ⟨hph, hp⟩
  refine ⟨fun c hwide => ?_, fun cs ⟨c, hc, hwide⟩ => ?_⟩
  · rw [exec, execWriteChar, codesRefusal_of_wide (List.mem_singleton_self c) hwide]
    exact accept_of_accepting ha
  · rw [exec, execWriteStr, codesRefusal_of_wide hc hwide]
    exact accept_of_accepting ha

/-- Settles O11: the code is not refused, and its byte is the code itself. -/
theorem writeCharSendsItsCode : Obligations.WriteCharSendsItsCode := by
  intro s c hph hp
  have hcodes : codesRefusal [c.toNat] = none := codesRefusal_map_toNat [c]
  rw [exec, execWriteChar, hcodes, codeByte_toNat]
  exact accept_ready hph hp

end Sys2Proof.Machine
end

section
/-! SUPPORT and settlements for the family of spec/43_bus_transfer.md: the events of a cycle, the pulses of everything a
block does, its latch log, and how long actions take. The statements are settled at the end, each from these lemmas. -/

namespace Sys2Proof.Machine

/-! ### The drives of a nibble -/

/-- The drives of four bits of a byte, from bit n on: bit n + k to line k (R39, R88). -/
theorem driveNibble_extractLsb' (b : Byte) (n : Nat) : driveNibble (b.extractLsb' n 4) =
    (List.range 4).map fun k => .drive (.d k) (b.getLsbD (n + k)) := by
  simp [driveNibble, List.range_succ]

/-! ### Whole pulses -/

/-- Where every pulse is whole, EN is `High` during one wait only, so no drive of RS or of a data line can fall there
(R89, R90). -/
theorem busStable_of_pulsesWhole {T : DelayTable} {as : List Action} (h : pulsesWhole T as = true) :
    busStable false as = true := by
  fun_induction pulsesWhole T as with
  | case1 a b as ih =>
    simp only [Bool.and_eq_true] at h
    exact ih h.2
  | case2 => simp at h
  | case3 a as hpulse hrise ih =>
    cases a with
    | wait t => exact ih h
    | drive l b =>
      cases l with
      | rs => exact ih h
      | d i => exact ih h
      | en => cases b with
        | false => exact ih h
        | true => exact (hrise rfl).elim
  | case4 => rfl

section
variable {T : DelayTable} {cfg : Config} {as : List Action}

@[simp] theorem pulsesWhole_driveByte_append (b : Byte) :
    pulsesWhole T (driveByte b ++ as) = pulsesWhole T as := rfl

@[simp] theorem pulsesWhole_driveNibble_append (v : BitVec 4) :
    pulsesWhole T (driveNibble v ++ as) = pulsesWhole T as := rfl

@[simp] theorem pulsesWhole_pulse_append : pulsesWhole T (pulse T ++ as) = pulsesWhole T as := by
  simp [pulse, pulsesWhole]

@[simp] theorem pulsesWhole_drive_rs_cons (b : Bool) :
    pulsesWhole T (.drive .rs b :: as) = pulsesWhole T as := rfl

@[simp] theorem pulsesWhole_drive_en_low_cons :
    pulsesWhole T (.drive .en false :: as) = pulsesWhole T as := rfl

@[simp] theorem pulsesWhole_wait_cons (t : Nat) : pulsesWhole T (.wait t :: as) = pulsesWhole T as := rfl

@[simp] theorem pulsesWhole_transfer_append (m : BusMode) (b : Byte) :
    pulsesWhole T (transfer m T b ++ as) = pulsesWhole T as := by
  cases m <;> simp [transfer]

@[simp] theorem pulsesWhole_rawFunctionSet_append :
    pulsesWhole cfg.delays (rawFunctionSet cfg ++ as) = pulsesWhole cfg.delays as := by
  rw [rawFunctionSet]
  split <;> simp

@[simp] theorem pulsesWhole_commandCycle_append (b : Byte) (t : Nat) :
    pulsesWhole cfg.delays (commandCycle cfg b t ++ as) = pulsesWhole cfg.delays as := by
  simp [commandCycle]

@[simp] theorem pulsesWhole_dataCycle_append (c : Byte) :
    pulsesWhole cfg.delays (dataCycle cfg c ++ as) = pulsesWhole cfg.delays as := by
  simp [dataCycle]

theorem pulsesWhole_stringCycles_append (cs : List Nat) :
    pulsesWhole cfg.delays (stringCycles cfg cs ++ as) = pulsesWhole cfg.delays as := by
  induction cs with
  | nil => rfl
  | cons c cs ih => simp [stringCycles, ih]

theorem pulsesWhole_initSeq_append :
    pulsesWhole cfg.delays (initSeq cfg ++ as) = pulsesWhole cfg.delays as := by
  simp [initSeq, initSteps]

/-- An operation that runs on an idle block only adds whole pulses (R85 to R89). -/
theorem pulsesWhole_expansion_append {i : Instr} (hr : runsWhenReady i = true) :
    pulsesWhole cfg.delays (expansion cfg i ++ as) = pulsesWhole cfg.delays as := by
  cases i with
  | writeChar c => exact pulsesWhole_dataCycle_append _
  | writeStr cs => exact pulsesWhole_stringCycles_append cs
  | setCursorPos | shiftDisplay | shiftCursor | setDisplayMode | reset | clear =>
    exact pulsesWhole_commandCycle_append _ _
  | functionSet | entryModeSet | functionSetRaw | new | drop => simp [runsWhenReady, opName] at hr

/-- In a sequence of such operations every pulse is whole (R89). -/
theorem pulsesWhole_expansions {ops : List Instr} (hr : ∀ i ∈ ops, runsWhenReady i = true) :
    pulsesWhole cfg.delays (expansions cfg ops) = true := by
  induction ops with
  | nil => rfl
  | cons i ops ih =>
    rw [List.forall_mem_cons] at hr
    obtain ⟨hi, hops⟩ := hr
    exact (pulsesWhole_expansion_append hi).trans (ih hops)

end

/-! ### The latch log -/

/-- The entries of words are all defined (R50, R91). -/
theorem undefined_not_mem_logOfWords (m : BusMode) (ws : List WireWord) : .undefined ∉ logOfWords m ws := by
  intro h
  obtain ⟨w, -, hw⟩ := mem_logOfWords.mp h
  obtain ⟨v, hv⟩ := wireEntries_rs hw
  simp at hv

/-! ### Durations -/

/-- The least time of one action: a wait's own, none for a drive (R93, R94). -/
def Action.least : Action → Nat
  | .wait t => t
  | .drive _ _ => 0

/-- An action may take any time from its least time up (R93, R94). -/
theorem Action.mayTake_iff (a : Action) (d : Nat) : a.mayTake d = true ↔ a.least ≤ d := by
  cases a <;> simp [Action.mayTake, Action.least]

/-- The least time of a list is that of its actions together (R94). -/
theorem minTime_eq_sum (as : List Action) : minTime as = (as.map Action.least).sum := by
  induction as with
  | nil => rfl
  | cons a as ih => cases a <;> simp [minTime, Action.least, ih]

/-- Durations are possible exactly when each is at least its action's least time (R93, R94). -/
theorem mayTakeAll_iff {as : List Action} {ts : List Nat} :
    mayTakeAll as ts = true ↔ List.Forall₂ (· ≤ ·) (as.map Action.least) ts := by
  induction as generalizing ts with
  | nil => cases ts <;> simp [mayTakeAll]
  | cons a as ih => cases ts <;> simp [mayTakeAll, Action.mayTake_iff, ih]

/-! ### The delay-provider call -/

section
variable {t unit k : Nat}

/-- The model's `ceilDiv` is Mathlib's. -/
theorem ceilDiv_eq (hu : 0 < unit) : ceilDiv t unit = t ⌈/⌉ unit := by
  rw [ceilDiv, Nat.ceilDiv_eq_add_pred_div, Nat.add_sub_assoc hu]

/-- As many units suffice as the time rounded up (R95). -/
theorem ceilDiv_le_iff (hu : 0 < unit) : ceilDiv t unit ≤ k ↔ t ≤ unit * k := by
  rw [ceilDiv_eq hu, ceilDiv_le_iff_le_mul hu]

/-- A time rounded up to the unit is at least itself (R95). -/
theorem le_ceilDiv_mul (hu : 0 < unit) : t ≤ ceilDiv t unit * unit :=
  Nat.mul_comm _ _ ▸ (ceilDiv_le_iff hu).mp le_rfl

/-- A time rounded up to the unit is less than one unit more (R95). -/
theorem ceilDiv_mul_lt (hu : 0 < unit) : ceilDiv t unit * unit < t + unit :=
  calc ceilDiv t unit * unit ≤ t + (unit - 1) := Nat.div_mul_le_self _ _
    _ < t + unit := by omega

/-- A wait is realised in microseconds where they fit in 16 bits (R95, R106). -/
theorem realise_microseconds (h : t ≤ 65535000) : ∃ us, realise t = some (.microseconds us) ∧
    (DelayCall.microseconds us).requested = ceilDiv t 1000 * 1000 := by
  have hfit : ceilDiv t 1000 ≤ 65535 := (ceilDiv_le_iff (by decide)).mpr h
  refine ⟨_, if_pos hfit, ?_⟩
  rw [DelayCall.requested, BitVec.toNat_ofNat, Nat.mod_eq_of_lt (by omega)]

/-- A wait that does not fit in 16 bits of microseconds is realised in milliseconds where these fit in 8 bits (R95,
R106). -/
theorem realise_milliseconds (h : 65535000 < t) (h' : t ≤ 255000000) : ∃ ms, realise t = some (.milliseconds ms) ∧
    (DelayCall.milliseconds ms).requested = ceilDiv t 1000000 * 1000000 := by
  have hwide : ¬ ceilDiv t 1000 ≤ 65535 := (ceilDiv_le_iff (by decide)).not.mpr (by omega)
  have hfit : ceilDiv t 1000000 ≤ 255 := (ceilDiv_le_iff (by decide)).mpr h'
  refine ⟨_, (if_neg hwide).trans (if_pos hfit), ?_⟩
  rw [DelayCall.requested, BitVec.toNat_ofNat, Nat.mod_eq_of_lt (by omega)]

/-- A wait of more than 255 ms is not realised (R19, R95). -/
theorem realise_eq_none (h : 255000000 < t) : realise t = none := by
  have hwide : ¬ ceilDiv t 1000 ≤ 65535 := (ceilDiv_le_iff (by decide)).not.mpr (by omega)
  have hlong : ¬ ceilDiv t 1000000 ≤ 255 := (ceilDiv_le_iff (by decide)).not.mpr (by omega)
  rw [realise, if_neg hwide, if_neg hlong]

end

/-! ### The statements of the family -/

/-- Settles O36: what a block has done and has pending is its initialization and whole operations, and each of these only
adds whole pulses. -/
theorem everyPulseIsWhole : Obligations.EveryPulseIsWhole := by
  intro s h
  obtain ⟨ops, hops, htr⟩ := h.history
  rw [htr, pulsesWhole_initSeq_append]
  exact pulsesWhole_expansions fun i hi => (hops i hi).1

/-- Settles O35: every pulse is whole (O36), and so the bus is stable. -/
theorem busIsStableDuringEveryPulse : Obligations.BusIsStableDuringEveryPulse :=
  fun s h => busStable_of_pulsesWhole (everyPulseIsWhole s h)

/-- Settles O38: what a block has done is the first part of what sends words, and the entries of words are defined. -/
theorem latchLogHasNoUndefinedEntry : Obligations.LatchLogHasNoUndefinedEntry := by
  intro s h hu
  obtain ⟨ops, -, hs⟩ := h.sends
  have hall : .undefined ∈ latchLogFrom (Lines.unknown s.cfg.lineCount) (s.trace ++ s.pending) := by
    rw [latchLogFrom_append]
    exact List.mem_append_left _ hu
  exact undefined_not_mem_logOfWords _ _ (hs.latched ▸ hall)

/-- Settles O51: the least durations are possible and sum to the least time, and the first one may be any larger. -/
theorem elapsedTimeIsALowerBoundOnly : Obligations.ElapsedTimeIsALowerBoundOnly := by
  refine ⟨fun as ts h => ?_, fun as => ?_, fun as bound hne => ?_⟩
  · rw [minTime_eq_sum]
    exact (mayTakeAll_iff.mp h).sum_le_sum
  · exact ⟨as.map Action.least, mayTakeAll_iff.mpr (List.forall₂_refl _), (minTime_eq_sum as).symm⟩
  · obtain ⟨a, as, rfl⟩ := List.exists_cons_of_ne_nil hne
    refine ⟨(a.least + bound) :: as.map Action.least,
      mayTakeAll_iff.mpr (.cons (Nat.le_add_right _ _) (List.forall₂_refl _)), ?_⟩
    rw [List.sum_cons]
    omega

/-- Settles O52: the time rounded up to the unit, in the smaller unit where it fits. -/
theorem waitIsOneSufficientDelayCall : Obligations.WaitIsOneSufficientDelayCall := by
  refine ⟨fun t h => ?_, fun t h => realise_eq_none h⟩
  by_cases hus : t ≤ 65535000
  · obtain ⟨us, hr, hreq⟩ := realise_microseconds hus
    refine ⟨_, hr, hreq ▸ le_ceilDiv_mul (by decide), iff_of_true ⟨us, rfl⟩ hus, fun _ _ => ?_,
      fun _ hc => by simp at hc⟩
    exact hreq ▸ ceilDiv_mul_lt (by decide)
  · obtain ⟨ms, hr, hreq⟩ := realise_milliseconds (Nat.lt_of_not_le hus) h
    refine ⟨_, hr, hreq ▸ le_ceilDiv_mul (by decide), iff_of_false (by simp) hus, fun _ hc => by simp at hc,
      fun _ _ => ?_⟩
    exact hreq ▸ ceilDiv_mul_lt (by decide)

/-- Settles O15: the drives of a byte and of its two nibbles, each with a pulse after it. -/
theorem commandCycleEvents : Obligations.CommandCycleEvents := by
  refine ⟨fun cfg b t hm => ?_, fun cfg b t hm => ?_⟩
  · simp [commandCycle, hm, transfer, driveByte_eq_map, pulse]
  · simp [commandCycle, hm, transfer, driveNibble_extractLsb', pulse]

end Sys2Proof.Machine
end

section
/-! SUPPORT and settlements for the family of spec/60_exceptions.md: what a call that is not accepted answers, and the steps
of a state with the invariant. The statements are settled at the end, each from these lemmas. -/

namespace Sys2Proof.Machine

/-! ### Calls that are not accepted -/

/-- `Ready` with actions pending refuses with `NotReady` (R26, R98; log 5). -/
theorem State.acceptanceRefusal_readyPending (s : State) (hph : s.phase = .ready) (hp : s.pending ≠ []) :
    s.acceptanceRefusal = some .notReady := by
  simp [State.acceptanceRefusal, hph, hp]

/-- Only in `Constructing` is initialization about to begin a step (R25, R61). -/
theorem State.atInitStep_eq_false {s : State} (k : Nat) (h : s.phase ≠ .constructing) : s.atInitStep k = false := by
  simp [State.atInitStep, h]

/-- A block that does not accept calls refuses an operation that only initialization emits, but for the block's own at its
step (R58, R98; log 4). -/
theorem initializationOnly_refuses {k : Nat} {own : Bool} {s : State} {r : RefuseReason}
    (ha : s.acceptanceRefusal = some r) (hown : s.atInitStep k = true → own = false) :
    initializationOnly k own s = .next (s.markRefused r) := by
  rcases initializationOnly_cases k own s with ⟨ho, hk, -⟩ | ⟨-, r', hr', hs⟩ | ⟨-, hnone, -⟩
  · simp [hown hk] at ho
  · obtain rfl : r = r' := by simpa [ha] using hr'
    exact hs
  · simp [ha] at hnone

/-- A block that does not accept calls refuses every operation but the constructor, and but for the operation that is the
step initialization is about to begin (R98, R99; log 4). -/
theorem exec_refuses {i : Instr} {s : State} {r : RefuseReason} (ha : s.acceptanceRefusal = some r)
    (hnew : ∀ cfg, i ≠ .new cfg)
    (hstep : ∀ k, emittingStep i = some k → s.atInitStep k = true → ∃ width, i = .functionSet width ∧ width ≠ s.cfg.mode) :
    exec i s = .next (s.markRefused r) := by
  cases i with
  | new cfg => exact absurd rfl (hnew cfg)
  | drop => simp only [exec, execDrop, ha]
  | functionSet width =>
    refine initializationOnly_refuses ha fun hk => ?_
    obtain ⟨_, ⟨rfl⟩, hw⟩ := hstep 4 rfl hk
    exact decide_eq_false hw
  | entryModeSet => exact initializationOnly_refuses ha fun hk => by simpa using hstep 7 rfl hk
  | functionSetRaw => exact initializationOnly_refuses ha fun hk => by simpa using hstep 2 rfl hk
  | writeChar | writeStr => exact accept_refuses ha
  | setCursorPos | shiftDisplay | shiftCursor | setDisplayMode | reset | clear =>
    exact accept_refuses (operand := none) ha

/-! ### Steps with the invariant -/

namespace State.Inv

variable {s : State}

/-- The sequencer meets no fault (R24, R91, R96). -/
theorem sequence_ne_fault (h : s.Inv) (f : Fault) : s.sequence ≠ .fault f := by
  intro hs
  obtain ⟨a, rest, hp, hf⟩ := sequence_fault hs
  have hperf := h.pending_performable
  simp [hp, performable, hf] at hperf

/-- The step that initialization is about to begin can be performed (R61, R96). -/
theorem initStep_performable (h : s.Inv) {k : Nat} (hk : s.atInitStep k = true) :
    performable s.lines (initStep s.cfg k) = true := by
  obtain ⟨-, hp⟩ := (s.atInitStep_iff k).mp hk
  have hperf := h.pending_performable
  rw [hp, performable_append, Bool.and_eq_true] at hperf
  exact hperf.1

/-- No call faults, whatever the operation (R96). -/
theorem exec_ne_fault (h : s.Inv) (i : Instr) (f : Fault) : exec i s ≠ .fault f :=
  exec_never_faults i s f fun _ _ hk => h.initStep_performable hk

/-- The sequencer always has a next state (R27; log 6). -/
theorem sequence_next (h : s.Inv) : ∃ t, s.sequence = .next t := by
  cases hs : s.sequence with
  | next t => exact ⟨t, rfl⟩
  | fault f => exact absurd hs (h.sequence_ne_fault f)
  | refused r => exact absurd hs (sequence_not_refused s r)

end State.Inv

/-- What API callers call is an operation of the API (R58). -/
theorem State.isApi_of_apiInputs {s : State} {x : Input} {i : Instr} (h : s.apiInputs = true) (hx : x ∈ s.inputs)
    (hi : x.instr = some i) : i.isApi = true := by
  simpa [hi] using List.all_eq_true.mp h x hx

/-! ### The statements of the family -/

/-- Settles O20: each of these phases does not accept calls, and initialization is about to begin a step in `Constructing`
only. -/
theorem busyAndDroppedRefuseEveryCall : Obligations.BusyAndDroppedRefuseEveryCall := by
  intro s i hnew
  have hother : ∀ {r}, s.acceptanceRefusal = some r → s.phase ≠ .constructing → exec i s = .next (s.markRefused r) :=
    fun ha hph => exec_refuses ha hnew fun k _ hk => by simp [State.atInitStep_eq_false k hph] at hk
  refine ⟨fun hph hstep => ?_, fun ⟨op, hph⟩ => ?_, fun hph hp => ?_, fun hph => ?_⟩
  · refine exec_refuses (s.acceptanceRefusal_busy (.inl hph)) hnew fun k hi hk => hstep k hi ?_
    obtain ⟨-, hp⟩ := (s.atInitStep_iff k).mp hk
    exact hp.trans (initStep_append s.cfg k).symm
  · exact hother (s.acceptanceRefusal_busy (.inr ⟨op, hph⟩)) (by simp [hph])
  · exact hother (s.acceptanceRefusal_readyPending hph hp) (by simp [hph])
  · exact hother (s.acceptanceRefusal_dropped hph) (by simp [hph])

/-- Settles O33: a step is a call or a sequencer step; with the invariant neither faults, and an API call always answers
a next state. -/
theorem invariantRulesOutFaults : Obligations.InvariantRulesOutFaults := by
  refine ⟨fun s h f => ?_, fun s ⟨hinv, hapi⟩ => ?_⟩
  · rcases step_cases s with ⟨i, rest, -, he, -⟩ | ⟨rest, -, he, -⟩ <;> rw [he]
    · exact (h.withInputs rest).exec_ne_fault i f
    · exact (h.withInputs rest).sequence_ne_fault f
  · rcases step_cases s with ⟨i, rest, -, he, hi⟩ | ⟨rest, -, he, -⟩ <;> rw [he]
    · refine exec_api_next i _ ?_
      rcases hi with hi | ⟨hi, -⟩ <;> exact s.isApi_of_apiInputs hapi (hi ▸ List.mem_cons_self) rfl
    · exact (hinv.withInputs rest).sequence_next

/-- Settles O14: an idle block accepts the drop. -/
theorem dropEndsTheInstance : Obligations.DropEndsTheInstance :=
  fun s hph hp => execDrop_of_accepting (s.acceptanceRefusal_none.mpr ⟨hph, hp⟩)

end Sys2Proof.Machine
end

section
/-! SUPPORT and settlement for the family of spec/70_reset_and_hazards.md: the settle wait an expansion ends with. The
statement is settled at the end from these lemmas. -/

namespace Sys2Proof.Machine

/-- The last action is a wait of at least `low` nanoseconds (R115). -/
def EndsWithWait (low : Nat) (as : List Action) : Prop := ∃ front t, as = front ++ [.wait t] ∧ low ≤ t

theorem EndsWithWait.append_left {low : Nat} {bs : List Action} (h : EndsWithWait low bs) (as : List Action) :
    EndsWithWait low (as ++ bs) := by
  obtain ⟨front, t, rfl, ht⟩ := h
  exact ⟨as ++ front, t, (List.append_assoc ..).symm, ht⟩

section
variable {cfg : Config} {low : Nat}

theorem commandCycle_endsWithWait {t : Nat} (b : Byte) (h : low ≤ t) : EndsWithWait low (commandCycle cfg b t) :=
  ⟨.drive .rs false :: transfer cfg.mode cfg.delays b, t, rfl, h⟩

theorem dataCycle_endsWithWait (c : Byte) (h : low ≤ cfg.delays.tData) : EndsWithWait low (dataCycle cfg c) :=
  ⟨.drive .rs true :: (transfer cfg.mode cfg.delays c ++ [.drive .rs false]), cfg.delays.tData, by simp [dataCycle], h⟩

/-- A string that is not empty ends as its last character's data cycle does (R83). -/
theorem stringCycles_endsWithWait {cs : List Nat} (h : low ≤ cfg.delays.tData) (hcs : stringCycles cfg cs ≠ []) :
    EndsWithWait low (stringCycles cfg cs) := by
  induction cs with
  | nil => exact absurd rfl hcs
  | cons c cs ih =>
    rw [stringCycles]
    by_cases hlast : stringCycles cfg cs = []
    · rw [hlast, List.append_nil]
      exact dataCycle_endsWithWait _ h
    · exact (ih hlast).append_left _

/-- Initialization ends with step 7, entry-mode-set (R61, R69). -/
theorem initSeq_endsWithWait (h : low ≤ cfg.delays.tInit) : EndsWithWait low (initSeq cfg) := by
  have hseq : initSeq cfg =
      ((initSteps cfg).take 7).flatten ++ commandCycle cfg entryModeByte cfg.delays.tInit := by
    simp [initSeq, initSteps]
  rw [hseq]
  exact (commandCycle_endsWithWait _ h).append_left _

/-- Every expansion that sends a byte ends with its settle wait, but for the raw write's (R64, R115). -/
theorem expansion_endsWithWait {i : Instr} (hw : cfg.wf = true) (hnew : ∀ cfg', i = .new cfg' → cfg' = cfg)
    (hraw : i ≠ .functionSetRaw) (hne : expansion cfg i ≠ []) : EndsWithWait (settleBound i) (expansion cfg i) := by
  obtain ⟨-, -, ⟨hinit, -⟩, ⟨hclr, -⟩, ⟨hcmd, -⟩, ⟨hdata, -⟩, -⟩ := wf_delays hw
  cases i with
  | writeChar c => exact dataCycle_endsWithWait _ hdata
  | writeStr cs => exact stringCycles_endsWithWait hdata hne
  | functionSet | entryModeSet => exact commandCycle_endsWithWait _ hinit
  | reset | clear => exact commandCycle_endsWithWait _ hclr
  | setCursorPos | shiftDisplay | shiftCursor | setDisplayMode => exact commandCycle_endsWithWait _ hcmd
  | new cfg' =>
    obtain rfl := hnew cfg' rfl
    exact initSeq_endsWithWait hinit
  | functionSetRaw => exact absurd rfl hraw
  | drop => exact absurd rfl hne

end

/-- The raw write that leaves events has been performed as initialization step 2, so step 3 and the steps after it are what
is pending (R61, R64). -/
theorem execFunctionSetRaw_pending {s t : State} (h : execFunctionSetRaw s = .next t) (htr : t.trace ≠ s.trace) :
    t.pending = .wait s.cfg.delays.tFs1 :: ((initSteps s.cfg).drop 4).flatten := by
  rcases initializationOnly_next h with ⟨r, rfl⟩ | ⟨-, -, -, rfl⟩
  · exact absurd rfl htr
  · exact initStep_append s.cfg 3

/-- Settles O54: the settle wait is what each cycle ends with, and step 3 of initialization is the raw write's. -/
theorem settleWaitEndsEveryOperation : Obligations.SettleWaitEndsEveryOperation := by
  refine ⟨fun _ _ hw hnew hraw hne => expansion_endsWithWait hw hnew hraw hne, fun s t hw h htr => ?_⟩
  obtain ⟨-, ⟨hfs1, -⟩, -⟩ := wf_delays hw
  exact ⟨_, _, execFunctionSetRaw_pending h htr, hfs1⟩

end Sys2Proof.Machine
end
